-- ==== Sys2Proof/Word.lean ====
section
/-!
DEFINITION. The word types of the CORE block and the raw 8-byte group.

A byte is 8 bits (20_memory.md R52). A block is the 64-bit value of 8 consecutive bytes, first byte most
significant (00_scope.md section 5, MemRead). A group is the same 8 bytes kept apart, as the colour rules name
them b0..b7 (30_encoding.md R87).
-/

namespace Sys2Proof

/-- A byte (20_memory.md R52). -/
abbrev Byte := BitVec 8

/-- The WIDTH and HEIGHT registers (10_state.md R30, WH_BITS = 32). -/
abbrev Word32 := BitVec 32

/-- LEN, OUT_LEN, COUNT, WPTR (LEN_BITS = 64; 10_state.md R25, R28, R31). -/
abbrev Word64 := BitVec 64

/-- An 8-byte RLE block as its 64-bit value (42_rle_compress.md R185). -/
abbrev Block := BitVec 64

/-- The 8 bytes of a pixel-pair group, lowest offset first (20_memory.md R52, 30_encoding.md R87). -/
structure Group where
  b0 : Byte
  b1 : Byte
  b2 : Byte
  b3 : Byte
  b4 : Byte
  b5 : Byte
  b6 : Byte
  b7 : Byte
  deriving DecidableEq, Repr

end Sys2Proof
end

