-- ==== Sys2Proof/Config.lean ====
section
/-!
DEFINITION. What the spec leaves to the implementation or to the platform (00_scope.md R7), and the free values.

The two open configuration parameters, DEC_Y_TOP and NARROW8, are plain data held in State, so that every
statement over all states quantifies over them (93_implementation_defined.md U1, U3; log entries 5, 6). The free
values are opaque constants with no body: no proof can see what they are (log entries 3, 4).
-/

namespace Sys2Proof

/-- DEC_Y_TOP: which bytes supply the two top luma bits in DECODE_FRAME (00_scope.md R7, 40 R125). -/
inductive DecYTop where
  /-- the layout as written (the spec's default) -/
  | layout
  /-- both pixels take the second half's top bits -/
  | second
  /-- both pixels take the first half's top bits -/
  | first
  deriving DecidableEq, Repr

/-- NARROW8: the configuration function from an integer outside 0..255 to a byte (00_scope.md R7), held as the
finite table of the integers at which it differs from the spec's default, t mod 256 (log entry 6). -/
abbrev Narrow8Table := List (Int × Byte)

/-- DESIGN CHOICE (log entry 3). The byte an operation reads at an offset of IN that the host has not written:
one free value for each offset. Safe: nothing is known of it. -/
opaque Config.unwrittenIn : Nat → Byte

/-- The draw ALLOC_OK of a later operation (10_state.md R32: "a free input under no law"; U5), by the number of
draws taken so far (log entry 4). Safe: nothing is known of it. -/
opaque Config.allocDraw : Nat → Bool

end Sys2Proof
end

