-- ==== Sys2Proof/Syntax.lean ====
section
/-!
DEFINITION. The syntax of the CORE block: one constructor of Instr for each row of spec/opcode_table.json.

Three rows are operations the host can start, one is the reserved rest of the command byte, and four are data: the
two records of the RLE stream and the two pixel-pair formats (30_encoding.md R80).
-/

namespace Sys2Proof

/-- The fields of a PixelPairYCbCrA group (30_encoding.md R85): 12-bit alpha (R89), 10-bit chroma and luma. -/
structure YCbCrA where
  a0 : BitVec 12
  cb : BitVec 10
  y0 : BitVec 10
  a1 : BitVec 12
  cr : BitVec 10
  y1 : BitVec 10
  deriving DecidableEq, Repr

/-- The fields of a PixelPairRGBA8888 group (30_encoding.md R91). -/
structure RGBA where
  r0 : Byte
  g0 : Byte
  b0 : Byte
  a0 : Byte
  r1 : Byte
  g1 : Byte
  b1 : Byte
  a1 : Byte
  deriving DecidableEq, Repr

/-- The rows of the opcode table. -/
inductive Instr where
  /-- DECODE_FRAME, CMD = 0x00 (30_encoding.md R82) -/
  | decodeFrame
  /-- ENCODE_FRAME, CMD = 0x01 or 0x05; `pm` is the premultiply bit PM (30_encoding.md R81, R82) -/
  | encodeFrame (pm : Bool)
  /-- COMPRESS_RLE, CMD = 0x02 (30_encoding.md R82) -/
  | compressRle
  /-- RESERVED_CMD: any other CMD value (30_encoding.md R84) -/
  | reservedCmd (cmd : Byte)
  /-- RUN_RECORD: sentinel, count, payload (30_encoding.md R95) -/
  | runRecord (count : Word64) (payload : Block)
  /-- LITERAL_BLOCK: a block that is not the sentinel (30_encoding.md R94) -/
  | literalBlock (block : Block)
  /-- FMT_PIXELPAIR_YCBCRA (30_encoding.md R85) -/
  | fmtPixelpairYcbcra (px : YCbCrA)
  /-- FMT_PIXELPAIR_RGBA8888 (30_encoding.md R91) -/
  | fmtPixelpairRgba8888 (px : RGBA)
  deriving DecidableEq, Repr

/-- Where the bytes of a row stand, which decides how they are read: the formats of 30_encoding.md R80. Any 8
bytes are a YCbCrA group, an RGBA group and, but for the sentinel, a literal block; only the place tells. -/
inductive Format where
  /-- the command register -/
  | cmd
  /-- a record boundary of an RLE stream -/
  | rleStream
  /-- a group of a YCbCrA buffer -/
  | groupYCbCrA
  /-- a group of an RGBA buffer -/
  | groupRGBA
  deriving DecidableEq, Repr

/-- The format a row's bytes stand in. -/
def Instr.format : Instr → Format
  | .decodeFrame => .cmd
  | .encodeFrame _ => .cmd
  | .compressRle => .cmd
  | .reservedCmd _ => .cmd
  | .runRecord _ _ => .rleStream
  | .literalBlock _ => .rleStream
  | .fmtPixelpairYcbcra _ => .groupYCbCrA
  | .fmtPixelpairRgba8888 _ => .groupRGBA

end Sys2Proof
end

