-- ==== Sys2Proof/WellFormed.lean ====
section
/-!
DEFINITION. Which instruction terms have an encoding: a reserved command is a reserved byte (30_encoding.md R84), a
literal block is not the sentinel (R94, R97). Every other term is well formed: the count and the payload of a
run-record are any 64-bit values (R95, R100), every field value of a group is legal (R90, R92).
-/

namespace Sys2Proof

/-- The sentinel: eight bytes FE (00_scope.md R6). -/
def sentinel : Block := 0xFEFEFEFEFEFEFEFE#64

/-- The four defined command bytes (30_encoding.md R82, R84). -/
def definedCmds : List Byte := [0x00#8, 0x01#8, 0x02#8, 0x05#8]

/-- The check on an instruction term. -/
def Instr.wellFormed : Instr → Bool
  | .decodeFrame => true
  | .encodeFrame _ => true
  | .compressRle => true
  | .reservedCmd c => !definedCmds.contains c
  | .runRecord _ _ => true
  | .literalBlock b => b != sentinel
  | .fmtPixelpairYcbcra _ => true
  | .fmtPixelpairRgba8888 _ => true

end Sys2Proof
end

