-- ==== Sys2Proof/Decode.lean ====
section
/-!
DEFINITION. The byte orders, the decoder of every format of 30_encoding.md R80, and after it the encoder, both
written from the layouts of 30_encoding.md. `a ++ b` places a in the more significant position (00_scope.md
section 5) and `v.extractLsb' lo n` is the field v[lo+n-1:lo].
-/

namespace Sys2Proof

/-! ## Byte order (20_memory.md R57, R58; 00_scope.md section 5) -/

/-- The number whose big-endian bytes are the list, first byte most significant. -/
def beNat (bs : List Byte) : Nat := bs.foldl (fun acc b => acc * 256 + b.toNat) 0

/-- The n-byte big-endian representation of v modulo 256^n, most significant byte first. -/
def beBytes : Nat → Nat → List Byte
  | 0, _ => []
  | n + 1, v => beBytes n (v / 256) ++ [BitVec.ofNat 8 v]

/-- A block as its 8 bytes, lowest offset first. -/
def blockBytes (b : Block) : List Byte := beBytes 8 b.toNat

/-- The bytes of a group, lowest offset first. -/
def Group.bytes (g : Group) : List Byte := [g.b0, g.b1, g.b2, g.b3, g.b4, g.b5, g.b6, g.b7]

/-- The group made of exactly 8 bytes. -/
def groupOfBytes : List Byte → Option Group
  | [b0, b1, b2, b3, b4, b5, b6, b7] => some ⟨b0, b1, b2, b3, b4, b5, b6, b7⟩
  | _ => none

/-- The block at the front of a byte stream and the rest of the stream. -/
def splitBlock : List Byte → Option (Block × List Byte)
  | b0 :: b1 :: b2 :: b3 :: b4 :: b5 :: b6 :: b7 :: rest =>
    some (BitVec.ofNat 64 (beNat [b0, b1, b2, b3, b4, b5, b6, b7]), rest)
  | _ => none

/-! ## The pixel-pair formats -/

/-- Field extraction of a PixelPairYCbCrA group (30_encoding.md R85, R87). -/
def unpackYCbCrA (g : Group) : YCbCrA where
  a0 := g.b0 ++ g.b1.extractLsb' 4 4
  cb := g.b1.extractLsb' 0 4 ++ g.b2.extractLsb' 2 6
  y0 := g.b2.extractLsb' 0 2 ++ g.b3
  a1 := g.b4 ++ g.b5.extractLsb' 4 4
  cr := g.b5.extractLsb' 0 4 ++ g.b6.extractLsb' 2 6
  y1 := g.b6.extractLsb' 0 2 ++ g.b7

/-- Field insertion per the layout (30_encoding.md R88). -/
def packYCbCrA (f : YCbCrA) : Group where
  b0 := f.a0.extractLsb' 4 8
  b1 := f.a0.extractLsb' 0 4 ++ f.cb.extractLsb' 6 4
  b2 := f.cb.extractLsb' 0 6 ++ f.y0.extractLsb' 8 2
  b3 := f.y0.extractLsb' 0 8
  b4 := f.a1.extractLsb' 4 8
  b5 := f.a1.extractLsb' 0 4 ++ f.cr.extractLsb' 6 4
  b6 := f.cr.extractLsb' 0 6 ++ f.y1.extractLsb' 8 2
  b7 := f.y1.extractLsb' 0 8

/-- The channels of a PixelPairRGBA8888 group (30_encoding.md R91). -/
def unpackRGBA (g : Group) : RGBA := ⟨g.b0, g.b1, g.b2, g.b3, g.b4, g.b5, g.b6, g.b7⟩

/-- The group of two RGBA quads (30_encoding.md R91). -/
def packRGBA (p : RGBA) : Group := ⟨p.r0, p.g0, p.b0, p.a0, p.r1, p.g1, p.b1, p.a1⟩

/-! ## The decoder -/

/-- The command byte (30_encoding.md R81, R82, R84): OP in bits 1:0, PM in bit 2, bits 7:3 zero. Total: every byte
that is not one of the four defined values is a reserved command, by name. -/
def decodeCmd (c : Byte) : Instr :=
  let op := c.extractLsb' 0 2
  let pm := c.getLsbD 2
  if c.extractLsb' 3 5 ≠ 0 then .reservedCmd c
  else if op = 1 then .encodeFrame pm
  else if pm then .reservedCmd c
  else if op = 0 then .decodeFrame
  else if op = 2 then .compressRle
  else .reservedCmd c

/-- Why bytes are no row of the table. -/
inductive DecodeError where
  /-- the command register holds exactly one byte (30_encoding.md R80) -/
  | commandIsOneByte
  /-- a group is exactly 8 bytes (30_encoding.md R80) -/
  | groupIsEightBytes
  /-- a stream record is 8 bytes, or 24 after a sentinel (30_encoding.md R93, R98) -/
  | truncatedRecord
  /-- bytes follow the one record asked for -/
  | trailingBytes
  deriving DecidableEq, Repr

/-- The record at the front of an RLE stream and the rest of the stream (30_encoding.md R98). -/
def readRecord (bs : List Byte) : Except DecodeError (Instr × List Byte) :=
  match splitBlock bs with
  | none => .error .truncatedRecord
  | some (b, rest) =>
    if b = sentinel then
      match splitBlock rest with
      | none => .error .truncatedRecord
      | some (count, rest) =>
        match splitBlock rest with
        | none => .error .truncatedRecord
        | some (payload, rest) => .ok (.runRecord count payload, rest)
    else .ok (.literalBlock b, rest)

/-- The decoder: the row of the table that the bytes are, in the place they stand. -/
def decodeAs : Format → List Byte → Except DecodeError Instr
  | .cmd, [c] => .ok (decodeCmd c)
  | .cmd, _ => .error .commandIsOneByte
  | .rleStream, bs =>
    match readRecord bs with
    | .ok (i, []) => .ok i
    | .ok (_, _ :: _) => .error .trailingBytes
    | .error e => .error e
  | .groupYCbCrA, bs =>
    match groupOfBytes bs with
    | some g => .ok (.fmtPixelpairYcbcra (unpackYCbCrA g))
    | none => .error .groupIsEightBytes
  | .groupRGBA, bs =>
    match groupOfBytes bs with
    | some g => .ok (.fmtPixelpairRgba8888 (unpackRGBA g))
    | none => .error .groupIsEightBytes

/-- The host's question: the row read from bits numbered as the table numbers them. 8 bits are a command byte. 64
and 192 bits are one big-endian number, byte 0 most significant (the table's own bit_numbering), read as a record
of an RLE stream: the two group formats have no bits that tell them from a literal block (log entry 9). -/
def decodeTableWord (nbits w : Nat) : Option Instr :=
  let place := if nbits = 8 then some Format.cmd
    else if nbits = 64 ∨ nbits = 192 then some Format.rleStream
    else none
  match place with
  | none => none
  | some f =>
    match decodeAs f (beBytes (nbits / 8) w) with
    | .ok i => some i
    | .error _ => none

/-! ## The encoder -/

/-- The command byte from its fields (30_encoding.md R81). -/
def cmdByte (pm : Bool) (op : BitVec 2) : Byte := 0#5 ++ BitVec.ofBool pm ++ op

/-- The bytes of a row, lowest offset first (30_encoding.md R82, R88, R91, R94, R95). -/
def encode : Instr → List Byte
  | .decodeFrame => [cmdByte false 0]
  | .encodeFrame pm => [cmdByte pm 1]
  | .compressRle => [cmdByte false 2]
  | .reservedCmd c => [c]
  | .runRecord count payload => blockBytes sentinel ++ blockBytes count ++ blockBytes payload
  | .literalBlock b => blockBytes b
  | .fmtPixelpairYcbcra px => (packYCbCrA px).bytes
  | .fmtPixelpairRgba8888 px => (packRGBA px).bytes

/-- How many bytes a row has (30_encoding.md R80). -/
def Instr.byteLength : Instr → Nat
  | .decodeFrame => 1
  | .encodeFrame _ => 1
  | .compressRle => 1
  | .reservedCmd _ => 1
  | .runRecord _ _ => 24
  | .literalBlock _ => 8
  | .fmtPixelpairYcbcra _ => 8
  | .fmtPixelpairRgba8888 _ => 8

end Sys2Proof
end

