-- ==== Sys2Proof/Machine/Constants.lean ====
section
/-!
DEFINITION. The constants of 00_scope.md R6 and the values R7 fixes, as exact numbers (D11). They are not state
(10_state.md R34).
-/

namespace Sys2Proof.Machine

/-- GROUP_BYTES -/
def groupBytes : Nat := 8
/-- RUN_MIN: a run-record is emitted only for a count of at least this -/
def runMin : Nat := 3
/-- Kr -/
def kr : Rat := 2126 / 10000
/-- Kg -/
def kg : Rat := 7152 / 10000
/-- Kb -/
def kb : Rat := 722 / 10000
/-- MID -/
def mid : Rat := 112
/-- Y_SHIFT: the luma sample is shifted left by this many bits -/
def yShift : Nat := 6
/-- Y_OFFSET = 16 << 8 -/
def yOffset : Rat := 4096
/-- Y_DIV -/
def yDiv : Rat := 219
/-- ALPHA_DEC_OFFSET -/
def alphaDecOffset : Rat := 16
/-- ALPHA_DEC_DIV = 3.6 -/
def alphaDecDiv : Rat := 36 / 10
/-- CHAN_MAX -/
def chanMax : Rat := 255
/-- CHROMA_GAIN (R7, D12) -/
def chromaGain : Rat := 64
/-- CHROMA_OFFSET (R7, D12) -/
def chromaOffset : Rat := 512
/-- the divisor that maps an 8-bit sample onto [0, 1] (41 R155, D15) -/
def sampleMax : Rat := 255
/-- LUMA_SCALE -/
def lumaScale : Rat := 876
/-- LUMA_BASE -/
def lumaBase : Int := 64
/-- LUMA_MIN -/
def lumaMin : Int := 64
/-- LUMA_MAX -/
def lumaMax : Int := 940
/-- CHROMA_SCALE -/
def chromaScale : Rat := 896
/-- CHROMA_BASE -/
def chromaBase : Int := 512
/-- CHROMA_MIN -/
def chromaMin : Int := 44
/-- CHROMA_MAX -/
def chromaMax : Int := 960
/-- CB_DIV -/
def cbDiv : Rat := 18556 / 10000
/-- CR_DIV -/
def crDiv : Rat := 15748 / 10000
/-- ALPHA_ENC_MUL = 4·219 -/
def alphaEncMul : Nat := 876
/-- ALPHA_ENC_DIV -/
def alphaEncDiv : Nat := 255
/-- ALPHA_ENC_BASE -/
def alphaEncBase : Nat := 61
/-- RLE_PROVISION / LEN (R7, D8) -/
def rleProvision : Nat := 3

end Sys2Proof.Machine
end

