-- ==== Sys2Proof/Machine/Flags.lean ====
section
/-!
DEFINITION. The STATUS codes, the block's only flag-like state (10_state.md R27, 60_exceptions.md R210). There are no
condition codes, no carry and no overflow.
-/

namespace Sys2Proof.Machine

/-- The error outcomes (60_exceptions.md R210). -/
inductive OpError where
  /-- LEN is not a multiple of 8 (R211) -/
  | invalidLength
  /-- the platform did not grant the output buffer (R212) -/
  | allocationFailure
  /-- an aligned input block of COMPRESS_RLE is the sentinel (R213) -/
  | formatViolation
  deriving DecidableEq, Repr

/-- STATUS = 0: OK (R210, D6). -/
def statusOk : BitVec 2 := 0#2

/-- The STATUS code of an error (R210, D6). -/
def statusOf : OpError → BitVec 2
  | .invalidLength => 1#2
  | .allocationFailure => 2#2
  | .formatViolation => 3#2

end Sys2Proof.Machine
end

