-- ==== Sys2Proof/Machine/State.lean ====
section
/-!
DEFINITION. The state of one CORE instance (10_state.md R22), the reasons a step can stop, and the state after reset
(10_state.md R36).
-/

namespace Sys2Proof.Machine

/-- One of the two byte-addressed spaces (10_state.md R33): the bytes that have been written, by strictly rising
offset. An offset that is not listed holds no value (log entry 3). -/
abbrev Memory := List Host.Cell

/-- The state of 10_state.md R22, with the platform's draw and the open parameters of 00_scope.md R7. -/
structure State where
  /-- CMD (R29) -/
  cmd : Byte
  /-- WIDTH (R30), read by no rule -/
  width : Word32
  /-- HEIGHT (R30), read by no rule -/
  height : Word32
  /-- LEN (R31): the length of the input in bytes -/
  len : Word64
  /-- IN (R33): the buffer is its offsets 0..LEN-1 -/
  inBuf : Memory
  /-- STATUS (R27) -/
  status : BitVec 2
  /-- OUT_LEN (R28) -/
  outLen : Word64
  /-- OUT (R33): its valid bytes are the offsets below OUT_LEN -/
  outBuf : Memory
  /-- PREV (R25) -/
  prev : Block
  /-- COUNT (R25) -/
  count : Word64
  /-- WPTR (R25) -/
  wptr : Word64
  /-- the scan index g (R26) -/
  scan : Nat
  /-- ALLOC_OK, the platform's answer to the next request (R32) -/
  allocOk : Bool
  /-- the model's own count of the draws taken (log entry 4) -/
  allocDraws : Nat
  /-- DEC_Y_TOP, fixed for the instance (00_scope.md R7, log entry 5) -/
  decYTop : DecYTop
  /-- NARROW8, fixed for the instance (00_scope.md R7, log entry 6) -/
  narrow8 : Narrow8Table
  deriving DecidableEq, Repr

/-- The machine raises no fault of its own: the three errors of the spec end an operation with a status (60 R210,
R216) and are next states. So this type has no constructor. -/
inductive Fault where
  deriving DecidableEq, Repr

/-- Why an instruction has no step. -/
inductive Refusal where
  /-- an instruction without a meaning; raised by no arm of exec. Safe. -/
  | notModelled (mnemonic : String)
  /-- RESERVED_CMD: the spec refuses it, no step and no result (30 R84, 60 R223). Safe. -/
  | reservedCommand (cmd : Byte)
  /-- RUN_RECORD: data of the output stream, no operation reads it (30 R99, 60 R224). Safe. -/
  | runRecordIsData
  /-- LITERAL_BLOCK: data of the output stream, no operation reads it (30 R99, 60 R224). Safe. -/
  | literalBlockIsData
  /-- FMT_PIXELPAIR_YCBCRA: data of a colour buffer, not an operation (60 R224). Safe. -/
  | ycbcraGroupIsData
  /-- FMT_PIXELPAIR_RGBA8888: data of a colour buffer, not an operation (60 R224). Safe. -/
  | rgbaGroupIsData
  deriving DecidableEq, Repr

/-- After reset (10_state.md R36): STATUS = OK and OUT_LEN = 0 are the spec's values; DEC_Y_TOP and NARROW8 are the
spec's defaults (00_scope.md R7). The spec leaves the rest unspecified: DESIGN CHOICE, log entries 1 to 4. -/
def State.reset : State where
  cmd := 0x00#8
  width := 0#32
  height := 0#32
  len := 0#64
  inBuf := []
  status := 0#2
  outLen := 0#64
  outBuf := []
  prev := 0#64
  count := 0#64
  wptr := 0#64
  scan := 0
  allocOk := true
  allocDraws := 0
  decYTop := .layout
  narrow8 := []

end Sys2Proof.Machine
end

