-- ==== Sys2Proof/Machine/Ops.lean ====
section
/-!
DEFINITION. The named operations over the two memories and the registers: memory in its canonical form, MemRead and
MemWrite (00_scope.md section 5), the scan (10_state.md R26), the draw (R32), raising an error (60_exceptions.md R216),
completing an operation, and the frame every operation shares: length check, allocation check, body.
-/

namespace Sys2Proof.Machine

/-! ## Memory -/

/-- The byte at an offset, none where nothing has been written. -/
def Memory.read? (a : Nat) : Memory → Option Byte
  | [] => none
  | (k, v) :: m => if k = a then some v else Memory.read? a m

/-- Writing one byte keeps the offsets in order and each listed once. -/
def Memory.write (a : Nat) (b : Byte) : Memory → Memory
  | [] => [(a, b)]
  | (k, v) :: m =>
    if a < k then (a, b) :: (k, v) :: m
    else if a = k then (a, b) :: m
    else (k, v) :: Memory.write a b m

/-- Writing consecutive bytes from an offset up. -/
def Memory.writeBytes (a : Nat) : List Byte → Memory → Memory
  | [], m => m
  | b :: bs, m => Memory.writeBytes (a + 1) bs (Memory.write a b m)

/-- Offsets strictly rising. -/
def Memory.rising : Memory → Bool
  | [] => true
  | [_] => true
  | (a, _) :: (b, v) :: m => decide (a < b) && Memory.rising ((b, v) :: m)

/-- The canonical form: offsets strictly rising and below 2^64 (20_memory.md R52). -/
def Memory.wf (m : Memory) : Bool := Memory.rising m && m.all (fun c => decide (c.1 < 2 ^ 64))

/-! ## Reading IN, writing OUT -/

/-- IN[off]: the written byte, or the free value of an offset nothing has written (log entry 3). -/
def State.readIn (s : State) (off : Nat) : Byte :=
  match s.inBuf.read? off with
  | some b => b
  | none => Config.unwrittenIn off

/-- MemRead(addr, n): n bytes of IN as a big-endian natural number (00_scope.md section 5). -/
def State.memRead (s : State) (addr : Nat) : Nat → Nat
  | 0 => 0
  | n + 1 => State.memRead s addr n * 256 + (s.readIn (addr + n)).toNat

/-- Block g of IN: MemRead(8g, 8) (20_memory.md R52, 42_rle_compress.md R185). -/
def State.readBlock (s : State) (g : Nat) : Block := BitVec.ofNat 64 (s.memRead (groupBytes * g) 8)

/-- Group g of IN: its bytes b0..b7 (20_memory.md R52, 30_encoding.md R87). -/
def State.readGroup (s : State) (g : Nat) : Group where
  b0 := s.readIn (groupBytes * g)
  b1 := s.readIn (groupBytes * g + 1)
  b2 := s.readIn (groupBytes * g + 2)
  b3 := s.readIn (groupBytes * g + 3)
  b4 := s.readIn (groupBytes * g + 4)
  b5 := s.readIn (groupBytes * g + 5)
  b6 := s.readIn (groupBytes * g + 6)
  b7 := s.readIn (groupBytes * g + 7)

/-- OUT[addr], OUT[addr + 1], ... <- the bytes. -/
def State.writeOut (addr : Nat) (bs : List Byte) (s : State) : State :=
  { s with outBuf := s.outBuf.writeBytes addr bs }

/-- MemWrite(addr, n, v): the n-byte big-endian representation of v to OUT (00_scope.md section 5). -/
def State.memWrite (addr n v : Nat) (s : State) : State := s.writeOut addr (beBytes n v)

/-! ## The scan (10_state.md R26) -/

/-- How many groups or blocks the input has: LEN/8. -/
def State.groupCount (s : State) : Nat := s.len.toNat / groupBytes

/-- The scan index advances by exactly 1. -/
def State.advance (s : State) : State := { s with scan := s.scan + 1 }

/-- The body, n times in order. -/
def scanSteps (body : State → State) : Nat → State → State
  | 0, s => s
  | n + 1, s => scanSteps body n (body s)

/-- One scan of the whole input: g = 0, 1, ..., LEN/8 - 1, the body run once at each. -/
def scanInput (body : State → State) (s : State) : State :=
  scanSteps body s.groupCount { s with scan := 0 }

/-- One group step of a colour operation: OUT[8g..8g+7] is f of IN[8g..8g+7] (20_memory.md R60, 40 R123, 41 R153). -/
def transformStep (f : Group → Group) (s : State) : State :=
  (s.writeOut (groupBytes * s.scan) (f (s.readGroup s.scan)).bytes).advance

/-! ## Ending an operation -/

/-- raise E (60_exceptions.md R216): STATUS gets the code, OUT_LEN gets 0, nothing else. There is no handler to go
to and nothing is saved; there is no return from an error (R218). -/
def State.raise (s : State) (e : OpError) : State := { s with status := statusOf e, outLen := 0#64 }

/-- An operation that succeeds: OUT_LEN gets the number of valid bytes and STATUS gets OK (10_state.md R27, R28). -/
def State.complete (s : State) (n : Word64) : State := { s with status := statusOk, outLen := n }

/-- Sampling ALLOC_OK uses the draw up: the next operation's draw is a new free value (R32, log entry 4). -/
def State.nextDraw (s : State) : State :=
  { s with allocOk := Config.allocDraw s.allocDraws, allocDraws := s.allocDraws + 1 }

/-- The platform's answer to a request for `_bytes` bytes of output. It does not depend on the size (U7). -/
def State.granted (s : State) (_bytes : Nat) : Bool := s.allocOk

/-- The frame all three operations share: the length check (R211), then the request for the one output buffer
(R212), then the operation's own work (60_exceptions.md R215). ALLOC_OK is sampled after the length check
(10_state.md R32). -/
def guarded (request : Nat) (body : State → State) (s : State) : State :=
  if s.len.toNat % groupBytes ≠ 0 then s.raise .invalidLength
  else if s.granted request then body s.nextDraw
  else s.nextDraw.raise .allocationFailure

end Sys2Proof.Machine
end

