-- ==== Sys2Proof/Machine/CompressRle.lean ====
section
/-!
DEFINITION. COMPRESS_RLE (42_rle_compress.md): the scan over PREV, COUNT and WPTR as R184 to R188 write it.
-/

namespace Sys2Proof.Machine

/-- Some aligned input block is the sentinel (R183). -/
def State.hasSentinel (s : State) : Bool :=
  (List.range s.groupCount).any fun g => s.readBlock g == sentinel

/-- MemWrite(WPTR, 8, v); WPTR <- WPTR + 8. -/
def State.emitBlock (v : Block) (s : State) : State :=
  { s.memWrite s.wptr.toNat 8 v.toNat with wptr := s.wptr + 8 }

/-- Flush of the pending run (R187). -/
def State.flush (s : State) : State :=
  if runMin ≤ s.count.toNat then ((s.emitBlock sentinel).emitBlock s.count).emitBlock s.prev
  else if s.count = 2 then (s.emitBlock s.prev).emitBlock s.prev
  else if s.count = 1 then s.emitBlock s.prev
  else s

/-- Start of the scan (R184). PREV keeps whatever it held: it is not read while COUNT = 0. -/
def State.startRun (s : State) : State := { s with count := 0, wptr := 0 }

/-- The block joins the pending run (R185) or flushes it and seeds a new one (R186). -/
def State.takeBlock (blk : Block) (s : State) : State :=
  if 0 < s.count.toNat ∧ blk = s.prev then { s with count := s.count + 1 }
  else { s.flush with prev := blk, count := 1 }

/-- One scan step (R185, R186). -/
def rleStep (s : State) : State := (s.takeBlock (s.readBlock s.scan)).advance

/-- The scan, the end-of-stream flush (R188), then OUT_LEN <- WPTR and STATUS <- OK (R190); but first the sentinel
check (R183). -/
def compressBody (s : State) : State :=
  if s.hasSentinel then s.raise .formatViolation
  else
    let t := (scanInput rleStep s.startRun).flush
    t.complete t.wptr

/-- COMPRESS_RLE: a request of 3·LEN bytes (R182). -/
def execCompressRle (s : State) : Host.Outcome State Fault Refusal :=
  .next (guarded (rleProvision * s.len.toNat) compressBody s)

end Sys2Proof.Machine
end

