-- ==== Sys2Proof/Machine/DataRows.lean ====
section
/-!
DEFINITION. The five rows of the opcode table that are no operation. A reserved command has no step (30_encoding.md
R84, 60_exceptions.md R223). The stream records and the pixel-pair formats are data (60 R224: the whole operation set
is DECODE_FRAME, ENCODE_FRAME and COMPRESS_RLE; 30 R99: there is no decompress operation). What they mean as data is
modelled in Decode.lean and Machine/Stream.lean.
-/

namespace Sys2Proof.Machine

/-- RESERVED_CMD: refused (R223). -/
def execReservedCmd (cmd : Byte) (_s : State) : Host.Outcome State Fault Refusal :=
  .refused (.reservedCommand cmd)

/-- RUN_RECORD: not an operation (R99, R224). -/
def execRunRecord (_count : Word64) (_payload : Block) (_s : State) : Host.Outcome State Fault Refusal :=
  .refused .runRecordIsData

/-- LITERAL_BLOCK: not an operation (R99, R224). -/
def execLiteralBlock (_block : Block) (_s : State) : Host.Outcome State Fault Refusal :=
  .refused .literalBlockIsData

/-- FMT_PIXELPAIR_YCBCRA: not an operation (R224). -/
def execFmtPixelpairYcbcra (_px : YCbCrA) (_s : State) : Host.Outcome State Fault Refusal :=
  .refused .ycbcraGroupIsData

/-- FMT_PIXELPAIR_RGBA8888: not an operation (R224). -/
def execFmtPixelpairRgba8888 (_px : RGBA) (_s : State) : Host.Outcome State Fault Refusal :=
  .refused .rgbaGroupIsData

end Sys2Proof.Machine
end

