-- ==== Sys2Proof/Machine/Arith.lean ====
section
/-!
DEFINITION. The rounding and narrowing functions of 00_scope.md section 5 and R8. Everything else in the colour rules
is exact rational arithmetic (D11).
-/

namespace Sys2Proof.Machine

/-- trunc0: the integer part, rounding toward zero. -/
def trunc0 (q : Rat) : Int := if 0 ≤ q then q.floor else -(-q).floor

/-- rhaz: round to the nearest integer, ties away from zero (D14). -/
def rhaz (q : Rat) : Int := if 0 ≤ q then (q + 1 / 2).floor else -(-q + 1 / 2).floor

/-- clamp(v, lo, hi) = max(lo, min(hi, v)). -/
def clampInt (v lo hi : Int) : Int := max lo (min hi v)

/-- NARROW8 at t: the table's value where it lists t, else the spec's default t mod 256 (00_scope.md R7). -/
def narrow8Open (table : Narrow8Table) (t : Int) : Byte :=
  match table.lookup t with
  | some b => b
  | none => BitVec.ofInt 8 t

/-- narrow8(t): t itself in 0..255, otherwise NARROW8's value (00_scope.md section 5). -/
def narrow8 (table : Narrow8Table) (t : Int) : Byte :=
  if 0 ≤ t ∧ t ≤ 255 then BitVec.ofInt 8 t else narrow8Open table t

end Sys2Proof.Machine
end

