-- ==== Sys2Proof/Machine/Operands.lean ====
section
/-!
DEFINITION. The operand forms of the colour operations: one group read as the fields DECODE_FRAME uses
(40_decode_ycbcra_to_rgba.md R124, R125), and the group ENCODE_FRAME writes (41_encode_rgba_to_ycbcra.md R162).
The two formats' own packing and unpacking are in Decode.lean.
-/

namespace Sys2Proof.Machine

/-- y0[9:8] under DEC_Y_TOP (R125). -/
def lumaTop0 (top : DecYTop) (g : Group) : BitVec 2 :=
  match top with
  | .layout => g.b2.extractLsb' 0 2
  | .second => g.b6.extractLsb' 0 2
  | .first => g.b2.extractLsb' 0 2

/-- y1[9:8] under DEC_Y_TOP (R125). -/
def lumaTop1 (top : DecYTop) (g : Group) : BitVec 2 :=
  match top with
  | .layout => g.b6.extractLsb' 0 2
  | .second => g.b6.extractLsb' 0 2
  | .first => g.b2.extractLsb' 0 2

/-- The fields DECODE_FRAME reads from a group: the layout's, with the luma samples as R125 says. -/
def decodeFields (top : DecYTop) (g : Group) : YCbCrA :=
  { unpackYCbCrA g with
    y0 := lumaTop0 top g ++ g.b3
    y1 := lumaTop1 top g ++ g.b7 }

/-- The eight bytes ENCODE_FRAME writes (R162): the layout, but with pixel 1's top luma bits in both halves. -/
def packEncoded (f : YCbCrA) : Group where
  b0 := f.a0.extractLsb' 4 8
  b1 := f.a0.extractLsb' 0 4 ++ f.cb.extractLsb' 6 4
  b2 := f.cb.extractLsb' 0 6 ++ f.y1.extractLsb' 8 2
  b3 := f.y0.extractLsb' 0 8
  b4 := f.a1.extractLsb' 4 8
  b5 := f.a1.extractLsb' 0 4 ++ f.cr.extractLsb' 6 4
  b6 := f.cr.extractLsb' 0 6 ++ f.y1.extractLsb' 8 2
  b7 := f.y1.extractLsb' 0 8

end Sys2Proof.Machine
end

