-- ==== Sys2Proof/Machine/DecodeFrame.lean ====
section
/-!
DEFINITION. DECODE_FRAME (40_decode_ycbcra_to_rgba.md).
-/

namespace Sys2Proof.Machine

/-- Yn (R126): ((sample << 6) - y_offset) / 219. -/
def lumaExpand (y : BitVec 10) : Rat := (((y.toNat <<< yShift : Nat) : Rat) - yOffset) / yDiv

/-- Cbn and Crn (R127): sample·gain - offset·gain. -/
def chromaExpand (c : BitVec 10) : Rat := (c.toNat : Rat) * chromaGain - chromaOffset * chromaGain

/-- Rq (R128). -/
def reconstructR (yn crn : Rat) : Rat := yn + crn * (1 - kr) / mid

/-- Bq (R128). -/
def reconstructB (yn cbn : Rat) : Rat := yn + cbn * (1 - kb) / mid

/-- Gq (R128). -/
def reconstructG (yn cbn crn : Rat) : Rat :=
  yn - cbn * (kb / kg) * (1 - kb) / mid - crn * (kr / kg) * (1 - kr) / mid

/-- The byte of a channel value (R129): upper clamp on the rational, truncation toward zero, narrow8. -/
def channelByte (table : Narrow8Table) (v : Rat) : Byte :=
  narrow8 table (trunc0 (if v ≤ chanMax then v else chanMax))

/-- The alpha quotient (R130): (a - 16) / 3.6 of the full 12-bit field. -/
def alphaQuotient (a : BitVec 12) : Rat := ((a.toNat : Rat) - alphaDecOffset) / alphaDecDiv

/-- The byte of an alpha field (R130): no clamp. -/
def alphaByte (table : Narrow8Table) (a : BitVec 12) : Byte := narrow8 table (trunc0 (alphaQuotient a))

/-- The two RGBA pixels of a group's fields (R126 to R130): both pixels use the one Cbn and Crn (R133). -/
def decodePixels (table : Narrow8Table) (f : YCbCrA) : RGBA :=
  let cbn := chromaExpand f.cb
  let crn := chromaExpand f.cr
  let yn0 := lumaExpand f.y0
  let yn1 := lumaExpand f.y1
  { r0 := channelByte table (reconstructR yn0 crn)
    g0 := channelByte table (reconstructG yn0 cbn crn)
    b0 := channelByte table (reconstructB yn0 cbn)
    a0 := alphaByte table f.a0
    r1 := channelByte table (reconstructR yn1 crn)
    g1 := channelByte table (reconstructG yn1 cbn crn)
    b1 := channelByte table (reconstructB yn1 cbn)
    a1 := alphaByte table f.a1 }

/-- One output group from one input group (R123, R131). -/
def decodeGroup (top : DecYTop) (table : Narrow8Table) (g : Group) : Group :=
  packRGBA (decodePixels table (decodeFields top g))

/-- All groups, then OUT_LEN <- LEN and STATUS <- OK (R134). -/
def decodeBody (s : State) : State :=
  (scanInput (transformStep (decodeGroup s.decYTop s.narrow8)) s).complete s.len

/-- DECODE_FRAME: a request of LEN bytes (R122). WIDTH and HEIGHT are not read (R132). -/
def execDecodeFrame (s : State) : Host.Outcome State Fault Refusal :=
  .next (guarded s.len.toNat decodeBody s)

end Sys2Proof.Machine
end

