-- ==== Sys2Proof/Machine/EncodeFrame.lean ====
section
/-!
DEFINITION. ENCODE_FRAME (41_encode_rgba_to_ycbcra.md).
-/

namespace Sys2Proof.Machine

/-- An 8-bit sample on [0, 1] (R155). -/
def normalise (v : Byte) : Rat := (v.toNat : Rat) / sampleMax

/-- A colour sample of a pixel with its alpha: scaled by the pixel's own alpha when PM = 1 (R156). -/
def colourSample (pm : Bool) (v alpha : Byte) : Rat :=
  if pm then normalise v * normalise alpha else normalise v

/-- Yq (R157). -/
def lumaOf (r g b : Rat) : Rat := kr * r + kg * g + kb * b

/-- The luma of an RGBA pixel (R155 to R157). -/
def pixelLuma (pm : Bool) (r g b alpha : Byte) : Rat :=
  lumaOf (colourSample pm r alpha) (colourSample pm g alpha) (colourSample pm b alpha)

/-- Cbq and Crq (R158): a colour difference over its divisor. -/
def chromaOf (c yq divisor : Rat) : Rat := (c - yq) / divisor

/-- The luma code before the clamp (R159). -/
def lumaPreClamp (yq : Rat) : Int := rhaz (yq * lumaScale) + lumaBase

/-- The luma code (R159). -/
def lumaCode (yq : Rat) : BitVec 10 := BitVec.ofInt 10 (clampInt (lumaPreClamp yq) lumaMin lumaMax)

/-- The chroma code before the clamp (R160). -/
def chromaPreClamp (c : Rat) : Int := rhaz (c * chromaScale) + chromaBase

/-- The chroma code (R160). -/
def chromaCode (c : Rat) : BitVec 10 := BitVec.ofInt 10 (clampInt (chromaPreClamp c) chromaMin chromaMax)

/-- The alpha field (R161): floor(al·876/255) + 61, whatever PM is. -/
def alphaCode (al : Byte) : BitVec 12 :=
  BitVec.ofNat 12 (al.toNat * alphaEncMul / alphaEncDiv + alphaEncBase)

/-- Cbq of a group: from pixel 1 only (R158). -/
def groupCb (pm : Bool) (p : RGBA) : Rat :=
  chromaOf (colourSample pm p.b1 p.a1) (pixelLuma pm p.r1 p.g1 p.b1 p.a1) cbDiv

/-- Crq of a group: from pixel 1 only (R158). -/
def groupCr (pm : Bool) (p : RGBA) : Rat :=
  chromaOf (colourSample pm p.r1 p.a1) (pixelLuma pm p.r1 p.g1 p.b1 p.a1) crDiv

/-- The quantised values of two RGBA pixels (R154 to R161). -/
def encodePixels (pm : Bool) (p : RGBA) : YCbCrA where
  a0 := alphaCode p.a0
  cb := chromaCode (groupCb pm p)
  y0 := lumaCode (pixelLuma pm p.r0 p.g0 p.b0 p.a0)
  a1 := alphaCode p.a1
  cr := chromaCode (groupCr pm p)
  y1 := lumaCode (pixelLuma pm p.r1 p.g1 p.b1 p.a1)

/-- One output group from one input group (R153, R162). -/
def encodeGroup (pm : Bool) (g : Group) : Group := packEncoded (encodePixels pm (unpackRGBA g))

/-- All groups, then OUT_LEN <- LEN and STATUS <- OK (R163). -/
def encodeBody (pm : Bool) (s : State) : State :=
  (scanInput (transformStep (encodeGroup pm)) s).complete s.len

/-- ENCODE_FRAME: a request of LEN bytes (R152). WIDTH and HEIGHT are not read (R166). -/
def execEncodeFrame (pm : Bool) (s : State) : Host.Outcome State Fault Refusal :=
  .next (guarded s.len.toNat (encodeBody pm) s)

end Sys2Proof.Machine
end

