-- ==== Sys2Proof/Machine/Dispatch.lean ====
section
/-!
DEFINITION. One arm per row of the opcode table.
-/

namespace Sys2Proof.Machine

def exec (i : Instr) (s : State) : Host.Outcome State Fault Refusal :=
  match i with
  | .decodeFrame => Sys2Proof.Machine.execDecodeFrame s
  | .encodeFrame pm => Sys2Proof.Machine.execEncodeFrame pm s
  | .compressRle => Sys2Proof.Machine.execCompressRle s
  | .reservedCmd cmd => Sys2Proof.Machine.execReservedCmd cmd s
  | .runRecord count payload => Sys2Proof.Machine.execRunRecord count payload s
  | .literalBlock block => Sys2Proof.Machine.execLiteralBlock block s
  | .fmtPixelpairYcbcra px => Sys2Proof.Machine.execFmtPixelpairYcbcra px s
  | .fmtPixelpairRgba8888 px => Sys2Proof.Machine.execFmtPixelpairRgba8888 px s

end Sys2Proof.Machine
end

