-- ==== Sys2Proof/Machine/Fetch.lean ====
section
/-!
DEFINITION. Where the instruction of a step is found. There is no instruction memory and no program counter
(10_state.md R26): an operation is what the command register says when the host starts it (R29).
-/

namespace Sys2Proof.Machine

/-- The bytes of the instruction: CMD, sampled once at operation start (R29, 20_memory.md R70). -/
def State.fetch (s : State) : List Byte := [s.cmd]

/-- The instruction of the next step. -/
def State.fetched (s : State) : Instr := decodeCmd s.cmd

/-- The host's write of a command of `nbits` bits. CMD holds 8; a wider word has no place to stand (log entry 7). -/
def State.placeCommand (s : State) (nbits w : Nat) : State :=
  if nbits = 8 then { s with cmd := BitVec.ofNat 8 w } else s

end Sys2Proof.Machine
end

