-- ==== Sys2Proof/Machine/Step.lean ====
section
/-!
DEFINITION. One step: the host starts an operation and it runs to its end (10_state.md R20, 20_memory.md R66,
70_reset_and_hazards.md R250). Log entry 7 says how a program comes to run.
-/

namespace Sys2Proof.Machine

/-- One whole operation, the one CMD says. -/
def step (s : State) : Host.Outcome State Fault Refusal := exec s.fetched s

/-- The state in which the next step runs the given command word: the host's write to CMD. -/
def State.withFetchWord (s : State) (nbits w : Nat) : State := s.placeCommand nbits w

end Sys2Proof.Machine
end

