-- ==== Sys2Proof/Machine/HostPort.lean ====
section
/-!
DEFINITION. What the host and the platform can do between operations (10_state.md R20, R29 to R33; 20_memory.md R66,
R67; 70_reset_and_hazards.md R247, R249). No operation of the block does any of this (60_exceptions.md R224).
-/

namespace Sys2Proof.Machine

/-- One write of the host, or one answer of the platform. -/
inductive HostMove where
  /-- write CMD (R29) -/
  | writeCmd (v : Byte)
  /-- write WIDTH (R30) -/
  | writeWidth (v : Word32)
  /-- write HEIGHT (R30) -/
  | writeHeight (v : Word32)
  /-- write LEN (R31) -/
  | writeLen (v : Word64)
  /-- write one byte of IN (R33); an offset is below 2^64 (20_memory.md R52) -/
  | writeIn (off : Word64) (v : Byte)
  /-- the platform's answer to the next request (R32) -/
  | drawAlloc (v : Bool)
  deriving DecidableEq, Repr

/-- The state after a move. -/
def State.hostMove (s : State) : HostMove → State
  | .writeCmd v => { s with cmd := v }
  | .writeWidth v => { s with width := v }
  | .writeHeight v => { s with height := v }
  | .writeLen v => { s with len := v }
  | .writeIn off v => { s with inBuf := s.inBuf.write off.toNat v }
  | .drawAlloc v => { s with allocOk := v }

/-- The host's write of a whole input buffer: its bytes from offset 0, and LEN (70 R242). -/
def State.loadInput (bs : List Byte) (s : State) : State :=
  { s with inBuf := s.inBuf.writeBytes 0 bs, len := BitVec.ofNat 64 bs.length }

/-- The host's read of STATUS (R27). -/
def State.hostReadStatus (s : State) : BitVec 2 := s.status

/-- The host's read of OUT_LEN (R28). -/
def State.hostReadOutLen (s : State) : Word64 := s.outLen

/-- The host's read of a byte of OUT: at or beyond OUT_LEN there is no defined content (R33, U10). -/
def State.hostReadOut (s : State) (off : Nat) : Option Byte :=
  if off < s.outLen.toNat then s.outBuf.read? off else none

/-- The valid bytes of OUT, in order. -/
def State.outBytes (s : State) : List (Option Byte) := (List.range s.outLen.toNat).map s.hostReadOut

/-- The host's copy of the first n bytes of OUT to IN. -/
def State.copyBytes (s : State) : Nat → State
  | 0 => s
  | n + 1 =>
    let t := State.copyBytes s n
    match t.hostReadOut n with
    | some b => { t with inBuf := t.inBuf.write n b }
    | none => t

/-- Chaining (70 R249): the host copies OUT[0..OUT_LEN-1] to IN and sets LEN to that OUT_LEN. -/
def State.copyOutToIn (s : State) : State := { s.copyBytes s.outLen.toNat with len := s.outLen }

end Sys2Proof.Machine
end

