-- ==== Sys2Proof/Machine/Stream.lean ====
section
/-!
DEFINITION. The RLE stream as its reader sees it (30_encoding.md R93 to R100) and the closed form of the compressor's
output (42_rle_compress.md R191). These are reading aids for statements: no operation of the block computes them
(30 R99). A stream is here a list of blocks.
-/

namespace Sys2Proof.Machine

/-- The blocks of the input, g = 0, 1, ..., LEN/8 - 1. -/
def State.inBlocks (s : State) : List Block := (List.range s.groupCount).map s.readBlock

/-- The bytes of a list of blocks. -/
def blocksBytes (bs : List Block) : List Byte := bs.flatMap blockBytes

/-- What a conforming reader computes (R99): the occurrences a stream stands for. A stream that ends inside a
run-record has no reading (log entry 13). -/
def expand : List Block → Option (List Block)
  | [] => some []
  | b :: rest =>
    if b = sentinel then
      match rest with
      | count :: payload :: rest' => (expand rest').map (List.replicate count.toNat payload ++ ·)
      | _ => none
    else (expand rest).map (b :: ·)

/-- The records of a stream (R98), as rows of the opcode table. -/
def parseStream : List Block → Option (List Instr)
  | [] => some []
  | b :: rest =>
    if b = sentinel then
      match rest with
      | count :: payload :: rest' => (parseStream rest').map (.runRecord count payload :: ·)
      | _ => none
    else (parseStream rest).map (.literalBlock b :: ·)

/-- The block a record stands for, if it is a record. -/
def recordBlock : Instr → Option Block
  | .runRecord _ payload => some payload
  | .literalBlock b => some b
  | _ => none

/-- A run-record as COMPRESS_RLE writes it: count at least 3 and payload not the sentinel (R96, R100); a literal that
is not the sentinel (R94). -/
def recordWritten : Instr → Bool
  | .runRecord count payload => decide (runMin ≤ count.toNat) && payload != sentinel
  | .literalBlock b => b != sentinel
  | _ => false

/-- The maximal runs of a block sequence, each with its length (42 R191). -/
def maximalRuns : List Block → List (Block × Nat)
  | [] => []
  | b :: bs =>
    match maximalRuns bs with
    | [] => [(b, 1)]
    | (v, n) :: rs => if b = v then (v, n + 1) :: rs else (b, 1) :: (v, n) :: rs

/-- What one maximal run contributes (42 R191). -/
def runBlocks (r : Block × Nat) : List Block :=
  if runMin ≤ r.2 then [sentinel, BitVec.ofNat 64 r.2, r.1] else List.replicate r.2 r.1

/-- The closed form of the output (42 R191). -/
def rleClosedForm (bs : List Block) : List Block := (maximalRuns bs).flatMap runBlocks

end Sys2Proof.Machine
end

