-- ==== Sys2Proof/Safety.lean ====
section
/-!
DEFINITION. What the claims call a good state, a reachable state, and the same command and input.
-/

namespace Sys2Proof.Machine

/-- The invariant: both memories canonical, OUT_LEN a multiple of 8 (10_state.md R28), no valid output after an
error (60_exceptions.md R216), and every byte below OUT_LEN written (20_memory.md R51). -/
def State.Inv (s : State) : Prop :=
  s.inBuf.wf = true ∧ s.outBuf.wf = true ∧ s.outLen.toNat % 8 = 0 ∧ (s.status ≠ statusOk → s.outLen = 0#64) ∧
    ∀ off, off < s.outLen.toNat → ∃ b, s.outBuf.read? off = some b

/-- The states that moves of the host and whole operations lead to from reset, in any order, for any value of the
two configuration parameters (20_memory.md R66; 00_scope.md R7). -/
inductive Reachable : State → Prop where
  | reset (top : DecYTop) (table : Narrow8Table) :
      Reachable { State.reset with decYTop := top, narrow8 := table }
  | host {s : State} (m : HostMove) : Reachable s → Reachable (s.hostMove m)
  | step {s t : State} : Reachable s → Machine.step s = .next t → Reachable t

/-- Two states give an operation the same inputs: the same LEN, the same bytes of IN below LEN, the same draw, and
the same configuration (10_state.md R21). CMD is the operation itself; everything else may differ. -/
def SameInput (s t : State) : Prop :=
  s.len = t.len ∧ (∀ off, off < s.len.toNat → s.readIn off = t.readIn off) ∧ s.allocOk = t.allocOk ∧
    s.decYTop = t.decYTop ∧ s.narrow8 = t.narrow8

/-- Two states show the host the same result: STATUS, OUT_LEN and the valid bytes of OUT (10_state.md R20). -/
def SameResult (s t : State) : Prop :=
  s.hostReadStatus = t.hostReadStatus ∧ s.hostReadOutLen = t.hostReadOutLen ∧
    ∀ off, s.hostReadOut off = t.hostReadOut off

end Sys2Proof.Machine
end

