-- ==== Sys2Proof/Certificates/Slice0/Obligations.lean ====
section
/-!
DEFINITION. The statements for the provers. Each docstring names the rule of spec/ it formalises; where a clause rests on
a choice of the model it names the log entry.
-/

open Sys2Proof Sys2Proof.Machine

/-! ## The command and the encodings -/

/-- One step is the operation CMD says: when the byte in CMD decodes to i, step is exec of i, with nothing around it
(10_state.md R26, R29; the step as the host's start of an operation is log entry 7). -/
def Obligations.StepRunsTheCommandInCmd : Prop :=
  ∀ (s : State) (i : Instr), s.fetch = [s.cmd] ∧ (decodeAs .cmd s.fetch = .ok i → step s = exec i s)

/-- The opcode map (30_encoding.md R82) and one word of every other format, written out from the layouts
(95_test_vectors.md F1, F4; the order of R91). -/
def Obligations.SampleWordsDecode : Prop :=
  decodeCmd 0x00#8 = .decodeFrame ∧ decodeCmd 0x01#8 = .encodeFrame false ∧ decodeCmd 0x05#8 = .encodeFrame true ∧
  decodeCmd 0x02#8 = .compressRle ∧
  decodeAs .groupYCbCrA [0x1F#8, 0x46#8, 0x64#8, 0xFA#8, 0x3A#8, 0x9F#8, 0x02#8, 0x58#8] =
    .ok (.fmtPixelpairYcbcra ⟨500#12, 409#10, 250#10, 937#12, 960#10, 600#10⟩) ∧
  decodeAs .groupRGBA [1#8, 2#8, 3#8, 4#8, 5#8, 6#8, 7#8, 8#8] =
    .ok (.fmtPixelpairRgba8888 ⟨1#8, 2#8, 3#8, 4#8, 5#8, 6#8, 7#8, 8#8⟩) ∧
  decodeAs .rleStream (List.replicate 8 0xFE#8 ++ [0#8, 0#8, 0#8, 0#8, 0#8, 0#8, 1#8, 0x2C#8] ++ List.replicate 8 0x7E#8) =
    .ok (.runRecord 300#64 0x7E7E7E7E7E7E7E7E#64) ∧
  decodeAs .rleStream [1#8, 2#8, 3#8, 4#8, 5#8, 6#8, 7#8, 8#8] = .ok (.literalBlock 0x0102030405060708#64)

/-- The reserved commands (30_encoding.md R84): OP = 3, PM = 1 with OP = 0 or 2, any of bits 7:3 set; exactly four
values are defined; and a reserved command has no step (60_exceptions.md R223). -/
def Obligations.ReservedCommandsHaveNoStep : Prop :=
  (∀ c : Byte, decodeCmd c = .reservedCmd c ↔
    c.extractLsb' 0 2 = 3#2 ∨ (c.getLsbD 2 = true ∧ (c.extractLsb' 0 2 = 0#2 ∨ c.extractLsb' 0 2 = 2#2)) ∨
      c.extractLsb' 3 5 ≠ 0#5) ∧
  (∀ c : Byte, decodeCmd c ≠ .reservedCmd c ↔ c = 0x00#8 ∨ c = 0x01#8 ∨ c = 0x02#8 ∨ c = 0x05#8) ∧
  (∀ (s : State) (c : Byte), exec (.reservedCmd c) s = .refused (.reservedCommand c)) ∧
  (∀ s : State, decodeCmd s.cmd = .reservedCmd s.cmd → step s = .refused (.reservedCommand s.cmd))

/-- The stream records and the pixel-pair formats are data, not operations (60_exceptions.md section 14, 30_encoding.md
section 5): executing one is refused by name in every state, and no command byte decodes to one. -/
def Obligations.DataRowsAreNoOperation : Prop :=
  (∀ (count : Word64) (payload : Block) (s : State), exec (.runRecord count payload) s = .refused .runRecordIsData) ∧
  (∀ (b : Block) (s : State), exec (.literalBlock b) s = .refused .literalBlockIsData) ∧
  (∀ (f : YCbCrA) (s : State), exec (.fmtPixelpairYcbcra f) s = .refused .ycbcraGroupIsData) ∧
  (∀ (p : RGBA) (s : State), exec (.fmtPixelpairRgba8888 p) s = .refused .rgbaGroupIsData) ∧
  (∀ c : Byte, (decodeCmd c).format = .cmd)

/-- Decoding the encoding of any well-formed row, in the place it stands, gives the row back. -/
def Obligations.DecodeOfEncode : Prop :=
  ∀ i : Instr, i.wellFormed = true → decodeAs i.format (encode i) = .ok i

/-- Whatever bytes decode to a row are exactly that row's encoding, and the row is well formed: no two readings of one
byte string, and no bit dropped. -/
def Obligations.EncodeOfDecode : Prop :=
  ∀ (f : Format) (bs : List Byte) (i : Instr), decodeAs f bs = .ok i →
    encode i = bs ∧ i.format = f ∧ i.wellFormed = true

/-- Field extraction (30_encoding.md R87), as numbers; with DEC_Y_TOP = LAYOUT it is what DECODE_FRAME uses. -/
def Obligations.YCbCrAFieldExtraction : Prop :=
  ∀ g : Group,
    (unpackYCbCrA g).a0.toNat = (g.b0.toNat <<< 4) ||| (g.b1.toNat >>> 4) ∧
    (unpackYCbCrA g).cb.toNat = ((g.b1.toNat &&& 0x0F) <<< 6) ||| (g.b2.toNat >>> 2) ∧
    (unpackYCbCrA g).y0.toNat = ((g.b2.toNat &&& 0x03) <<< 8) ||| g.b3.toNat ∧
    (unpackYCbCrA g).a1.toNat = (g.b4.toNat <<< 4) ||| (g.b5.toNat >>> 4) ∧
    (unpackYCbCrA g).cr.toNat = ((g.b5.toNat &&& 0x0F) <<< 6) ||| (g.b6.toNat >>> 2) ∧
    (unpackYCbCrA g).y1.toNat = ((g.b6.toNat &&& 0x03) <<< 8) ||| g.b7.toNat ∧
    decodeFields .layout g = unpackYCbCrA g

/-- The layout as two 32-bit big-endian words of IN (30_encoding.md R86). -/
def Obligations.YCbCrAAsTwoWords : Prop :=
  ∀ (s : State) (g : Nat),
    s.memRead (8 * g) 4 = (unpackYCbCrA (s.readGroup g)).a0.toNat * 2 ^ 20 +
      (unpackYCbCrA (s.readGroup g)).cb.toNat * 2 ^ 10 + (unpackYCbCrA (s.readGroup g)).y0.toNat ∧
    s.memRead (8 * g + 4) 4 = (unpackYCbCrA (s.readGroup g)).a1.toNat * 2 ^ 20 +
      (unpackYCbCrA (s.readGroup g)).cr.toNat * 2 ^ 10 + (unpackYCbCrA (s.readGroup g)).y1.toNat

/-- Field insertion per the layout (30_encoding.md R88): the bytes as the rule writes them, it is the inverse of field
extraction, both ways, and ENCODE_FRAME's packing differs from it in b2 alone, which ends in Y1[9:8]. -/
def Obligations.YCbCrAFieldInsertion : Prop :=
  (∀ f : YCbCrA,
    (packYCbCrA f).b0.toNat = f.a0.toNat / 16 ∧
    (packYCbCrA f).b1.toNat = ((f.a0.toNat % 16) <<< 4) ||| (f.cb.toNat / 64) ∧
    (packYCbCrA f).b2.toNat = ((f.cb.toNat % 64) <<< 2) ||| (f.y0.toNat / 256) ∧
    (packYCbCrA f).b3.toNat = f.y0.toNat % 256 ∧
    (packYCbCrA f).b4.toNat = f.a1.toNat / 16 ∧
    (packYCbCrA f).b5.toNat = ((f.a1.toNat % 16) <<< 4) ||| (f.cr.toNat / 64) ∧
    (packYCbCrA f).b6.toNat = ((f.cr.toNat % 64) <<< 2) ||| (f.y1.toNat / 256) ∧
    (packYCbCrA f).b7.toNat = f.y1.toNat % 256 ∧
    unpackYCbCrA (packYCbCrA f) = f) ∧
  (∀ g : Group, packYCbCrA (unpackYCbCrA g) = g) ∧
  (∀ f : YCbCrA, packEncoded f = { packYCbCrA f with b2 := f.cb.extractLsb' 0 6 ++ f.y1.extractLsb' 8 2 })

/-- The byte order of a PixelPairRGBA8888 group (20_memory.md R55): R, G, B, A of P0, then of P1, in offset order. -/
def Obligations.RGBAByteOrder : Prop :=
  ∀ b0 b1 b2 b3 b4 b5 b6 b7 : Byte,
    decodeAs .groupRGBA [b0, b1, b2, b3, b4, b5, b6, b7] =
      .ok (.fmtPixelpairRgba8888 { r0 := b0, g0 := b1, b0 := b2, a0 := b3, r1 := b4, g1 := b5, b1 := b6, a1 := b7 }) ∧
    encode (.fmtPixelpairRgba8888 { r0 := b0, g0 := b1, b0 := b2, a0 := b3, r1 := b4, g1 := b5, b1 := b6, a1 := b7 }) =
      [b0, b1, b2, b3, b4, b5, b6, b7]

/-- The run count is big-endian (20_memory.md R58). -/
def Obligations.RunCountIsBigEndian : Prop :=
  (∀ count : Word64, beNat (blockBytes count) = count.toNat ∧ (blockBytes count).length = 8 ∧
    (blockBytes count)[0]? = some (count.extractLsb' 56 8) ∧ (blockBytes count)[7]? = some (count.extractLsb' 0 8)) ∧
  blockBytes 3#64 = [0#8, 0#8, 0#8, 0#8, 0#8, 0#8, 0#8, 3#8] ∧
  blockBytes 300#64 = [0#8, 0#8, 0#8, 0#8, 0#8, 0#8, 1#8, 0x2C#8]

/-- A reader tells the length of the record at a block boundary (30_encoding.md R98): 24 bytes after a sentinel, else 8; it
reads back every record, whatever its count and payload are and whatever follows, so a stream parses in one way. -/
def Obligations.StreamReadsRecordByRecord : Prop :=
  (∀ (i : Instr) (rest : List Byte), i.format = .rleStream → i.wellFormed = true →
    readRecord (encode i ++ rest) = .ok (i, rest)) ∧
  (∀ (bs rest : List Byte) (i : Instr), readRecord bs = .ok (i, rest) →
    bs = encode i ++ rest ∧ i.format = .rleStream ∧ i.wellFormed = true ∧
    (encode i).length = if bs.take 8 = List.replicate 8 0xFE#8 then 24 else 8)

/-! ## The errors -/

/-- InvalidLength (60_exceptions.md R211, R216): whatever the draw and whatever IN holds, LEN mod 8 ≠ 0 ends each of the
three operations with STATUS = 1, OUT_LEN = 0 and nothing else changed. Two clauses of that are the model's own: PREV, COUNT,
WPTR and the scan index, which cease to exist (R216), keep their values (log entry 2), and no draw is used up (log entry 4). -/
def Obligations.InvalidLengthOutcome : Prop :=
  ∀ (s : State) (i : Instr), i = .decodeFrame ∨ i = .encodeFrame false ∨ i = .encodeFrame true ∨ i = .compressRle →
    s.len.toNat % 8 ≠ 0 → exec i s = .next { s with status := 1#2, outLen := 0#64 }

/-- AllocationFailure (60_exceptions.md section 1): with a good LEN and ALLOC_OK = 0 each operation ends with STATUS = 2,
OUT_LEN = 0; the draw is used up, which is the model's own field (log entry 4), and nothing else changes. That PREV, COUNT,
WPTR and the scan index, which cease to exist (R216), keep their values is the model's choice (log entry 2). -/
def Obligations.AllocationFailureOutcome : Prop :=
  ∀ (s : State) (i : Instr), i = .decodeFrame ∨ i = .encodeFrame false ∨ i = .encodeFrame true ∨ i = .compressRle →
    s.len.toNat % 8 = 0 → s.allocOk = false →
      exec i s = .next { s with status := 2#2, outLen := 0#64, allocOk := Config.allocDraw s.allocDraws, allocDraws := s.allocDraws + 1 }

/-- FormatViolation (42_rle_compress.md section 1): a sentinel at any aligned block, wherever it stands, ends COMPRESS_RLE
with STATUS = 3 and OUT_LEN = 0; no byte of OUT is written. The draw is used up (log entry 4), and PREV, COUNT,
WPTR and the scan index, which cease to exist (60_exceptions.md R216), keep their values: the model's choices (log entry 2). -/
def Obligations.FormatViolationOutcome : Prop :=
  ∀ (s : State) (g : Nat), s.len.toNat % 8 = 0 → s.allocOk = true → g < s.len.toNat / 8 →
    s.memRead (8 * g) 8 = 0xFEFEFEFEFEFEFEFE →
      exec .compressRle s = .next { s with status := 3#2, outLen := 0#64, allocOk := Config.allocDraw s.allocDraws, allocDraws := s.allocDraws + 1 }

/-- The priority of the errors (60_exceptions.md R215): InvalidLength, then AllocationFailure, then FormatViolation, and
apart from the code every error leaves the same result. -/
def Obligations.ErrorPriority : Prop :=
  (∀ s : State, ∃ t, exec .compressRle s = .next t ∧
    (t.status = if s.len.toNat % 8 ≠ 0 then 1#2 else if s.allocOk = false then 2#2
      else if s.hasSentinel = true then 3#2 else 0#2) ∧
    (t.status ≠ 0#2 → t.outLen = 0#64 ∧ t.outBuf = s.outBuf)) ∧
  (∀ (s : State) (i : Instr), i = .decodeFrame ∨ i = .encodeFrame false ∨ i = .encodeFrame true → ∃ t, exec i s = .next t ∧
    (t.status = if s.len.toNat % 8 ≠ 0 then 1#2 else if s.allocOk = false then 2#2 else 0#2) ∧
    (t.status ≠ 0#2 → t.outLen = 0#64 ∧ t.outBuf = s.outBuf))

/-- Which operation can end in which status (60_exceptions.md R214): each that the table grants is reached, and the
colour operations never end in FormatViolation. -/
def Obligations.StatusTable : Prop :=
  (∀ (i : Instr), i = .decodeFrame ∨ i = .encodeFrame false ∨ i = .encodeFrame true →
    (∀ s t : State, exec i s = .next t → t.status ≠ 3#2) ∧
    (∀ k : BitVec 2, k ≠ 3#2 → ∃ s t : State, exec i s = .next t ∧ t.status = k)) ∧
  (∀ k : BitVec 2, ∃ s t : State, exec .compressRle s = .next t ∧ t.status = k)

/-! ## DECODE_FRAME -/

/-- DECODE_FRAME completes on every input with a good LEN and a grant: STATUS = OK, OUT_LEN = LEN, and the eight bytes of
every output group are the narrowed channel and alpha values of the input group's fields (40_decode_ycbcra_to_rgba.md
R131, R134, with the formulas of R126 to R130 by name). That the scan index stands at LEN/8 afterwards is the model's choice
(log entry 2). -/
def Obligations.DecodeFrameResult : Prop :=
  ∀ s : State, s.len.toNat % 8 = 0 → s.allocOk = true →
    ∃ t, exec .decodeFrame s = .next t ∧ t.status = 0#2 ∧ t.outLen = s.len ∧ t.scan = s.len.toNat / 8 ∧
      ∀ g, g < s.len.toNat / 8 →
        let f := decodeFields s.decYTop (s.readGroup g)
        let cbn := chromaExpand f.cb
        let crn := chromaExpand f.cr
        let chan := channelByte s.narrow8
        t.hostReadOut (8 * g) = some (chan (reconstructR (lumaExpand f.y0) crn)) ∧
        t.hostReadOut (8 * g + 1) = some (chan (reconstructG (lumaExpand f.y0) cbn crn)) ∧
        t.hostReadOut (8 * g + 2) = some (chan (reconstructB (lumaExpand f.y0) cbn)) ∧
        t.hostReadOut (8 * g + 3) = some (alphaByte s.narrow8 f.a0) ∧
        t.hostReadOut (8 * g + 4) = some (chan (reconstructR (lumaExpand f.y1) crn)) ∧
        t.hostReadOut (8 * g + 5) = some (chan (reconstructG (lumaExpand f.y1) cbn crn)) ∧
        t.hostReadOut (8 * g + 6) = some (chan (reconstructB (lumaExpand f.y1) cbn)) ∧
        t.hostReadOut (8 * g + 7) = some (alphaByte s.narrow8 f.a1)

/-- The integer form of the decode arithmetic (40_decode_ycbcra_to_rgba.md R135): the exact quotients of R126 to R128 and
the bytes of R129 and R130, for every value of every field and every NARROW8. -/
def Obligations.DecodeIntegerForm : Prop :=
  ∀ (table : Narrow8Table) (y cb cr : BitVec 10) (a : BitVec 12),
    let ys : Int := 64 * (y.toNat : Int) - 4096
    let db : Int := (cb.toNat : Int) - 512
    let dr : Int := (cr.toNat : Int) - 512
    let nr : Int := ys * 17500 + dr * 1724406
    let nb : Int := ys * 17500 + db * 2031882
    let ng : Int := ys * 125160000 - db * 1467018804 - dr * 3666087156
    let chan := fun (n d : Int) => if 255 * d ≤ n then 255#8 else narrow8 table (n.tdiv d)
    reconstructR (lumaExpand y) (chromaExpand cr) = (nr : Rat) / 3832500 ∧
    reconstructB (lumaExpand y) (chromaExpand cb) = (nb : Rat) / 3832500 ∧
    reconstructG (lumaExpand y) (chromaExpand cb) (chromaExpand cr) = (ng : Rat) / 27410040000 ∧
    channelByte table (reconstructR (lumaExpand y) (chromaExpand cr)) = chan nr 3832500 ∧
    channelByte table (reconstructB (lumaExpand y) (chromaExpand cb)) = chan nb 3832500 ∧
    channelByte table (reconstructG (lumaExpand y) (chromaExpand cb) (chromaExpand cr)) = chan ng 27410040000 ∧
    alphaByte table a = narrow8 table ((5 * ((a.toNat : Int) - 16)).tdiv 18)

/-- The luma samples under each value of DEC_Y_TOP (40_decode_ycbcra_to_rgba.md R125), and the three agree on every group
whose two top-bit fields are equal. -/
def Obligations.DecodeTopLumaBits : Prop :=
  (∀ g : Group,
    (decodeFields .layout g).y0.toNat = (g.b2.toNat % 4) * 256 + g.b3.toNat ∧
    (decodeFields .layout g).y1.toNat = (g.b6.toNat % 4) * 256 + g.b7.toNat ∧
    (decodeFields .second g).y0.toNat = (g.b6.toNat % 4) * 256 + g.b3.toNat ∧
    (decodeFields .second g).y1.toNat = (g.b6.toNat % 4) * 256 + g.b7.toNat ∧
    (decodeFields .first g).y0.toNat = (g.b2.toNat % 4) * 256 + g.b3.toNat ∧
    (decodeFields .first g).y1.toNat = (g.b2.toNat % 4) * 256 + g.b7.toNat) ∧
  (∀ (top top' : DecYTop) (table : Narrow8Table) (g : Group), g.b2.extractLsb' 0 2 = g.b6.extractLsb' 0 2 →
    decodeGroup top table g = decodeGroup top' table g) ∧
  (∀ (pm : Bool) (g : Group), (encodeGroup pm g).b2.extractLsb' 0 2 = (encodeGroup pm g).b6.extractLsb' 0 2)

/-- The alpha bytes (40_decode_ycbcra_to_rgba.md section 3): inside 13..937 whatever NARROW8 is, with the rule's values;
outside, the low byte under the default NARROW8. And narrow8 itself (00_scope.md section 5): t in 0..255, elsewhere
NARROW8's value, which is the table's where it lists t and t mod 256 where it does not; NARROW8 as a table is the model's
choice (log entry 6). -/
def Obligations.DecodeAlphaValues : Prop :=
  (∀ (table : Narrow8Table) (t : Int),
    (0 ≤ t → t ≤ 255 → ((narrow8 table t).toNat : Int) = t) ∧
    (t < 0 ∨ 255 < t →
      (∀ b, table.lookup t = some b → narrow8 table t = b) ∧
      (table.lookup t = none → ((narrow8 table t).toNat : Int) = t % 256))) ∧
  (∀ (table : Narrow8Table) (a : BitVec 12), 13 ≤ a.toNat → a.toNat ≤ 937 →
    (alphaByte table a).toNat = 5 * (a.toNat - 16) / 18 ∧ (a.toNat ≤ 19 → alphaByte table a = 0#8) ∧
      (934 ≤ a.toNat → alphaByte table a = 255#8)) ∧
  (∀ table : Narrow8Table, alphaByte table 20#12 = 1#8 ∧ alphaByte table 61#12 = 12#8 ∧ alphaByte table 64#12 = 13#8) ∧
  alphaByte [] 12#12 = 255#8 ∧ alphaByte [] 0#12 = 252#8 ∧ alphaByte [] 938#12 = 0#8 ∧ alphaByte [] 941#12 = 0#8 ∧
  alphaByte [] 1023#12 = 23#8 ∧ alphaByte [] 4095#12 = 109#8

/-- The bounds of every channel value and of the alpha quotient over all inputs (40_decode_ycbcra_to_rgba.md section 5),
rounded outward to integers, and the two extreme groups under the default NARROW8 and every DEC_Y_TOP. -/
def Obligations.DecodeRanges : Prop :=
  (∀ (y cb cr : BitVec 10) (a : BitVec 12),
    -250 < reconstructR (lumaExpand y) (chromaExpand cr) ∧ reconstructR (lumaExpand y) (chromaExpand cr) < 511 ∧
    -115 < reconstructG (lumaExpand y) (chromaExpand cb) (chromaExpand cr) ∧
    reconstructG (lumaExpand y) (chromaExpand cb) (chromaExpand cr) < 377 ∧
    -291 < reconstructB (lumaExpand y) (chromaExpand cb) ∧ reconstructB (lumaExpand y) (chromaExpand cb) < 552 ∧
    -5 < alphaQuotient a ∧ alphaQuotient a < 1134) ∧
  (∀ top : DecYTop,
    decodeGroup top [] ⟨0#8, 0#8, 0#8, 0#8, 0#8, 0#8, 0#8, 0#8⟩ =
      ⟨0x07#8, 0x4D#8, 0xDE#8, 0xFC#8, 0x07#8, 0x4D#8, 0xDE#8, 0xFC#8⟩ ∧
    decodeGroup top [] ⟨255#8, 255#8, 255#8, 255#8, 255#8, 255#8, 255#8, 255#8⟩ =
      ⟨0xFF#8, 0xB8#8, 0xFF#8, 0x6D#8, 0xFF#8, 0xB8#8, 0xFF#8, 0x6D#8⟩)

/-- When NARROW8 plays no part (40_decode_ycbcra_to_rgba.md R137): every channel value above -1 and both alpha fields in
13..937; and this holds of every group ENCODE_FRAME writes from two equal opaque pixels without premultiply. -/
def Obligations.DecodeWithoutNarrow8 : Prop :=
  (∀ (table table' : Narrow8Table) (f : YCbCrA),
    (∀ y, y = f.y0 ∨ y = f.y1 →
      -1 < reconstructR (lumaExpand y) (chromaExpand f.cr) ∧ -1 < reconstructB (lumaExpand y) (chromaExpand f.cb) ∧
      -1 < reconstructG (lumaExpand y) (chromaExpand f.cb) (chromaExpand f.cr)) →
    13 ≤ f.a0.toNat → f.a0.toNat ≤ 937 → 13 ≤ f.a1.toNat → f.a1.toNat ≤ 937 →
    decodePixels table f = decodePixels table' f) ∧
  (∀ (top : DecYTop) (r g b : Byte),
    let f := decodeFields top (encodeGroup false ⟨r, g, b, 255#8, r, g, b, 255#8⟩)
    (∀ y, y = f.y0 ∨ y = f.y1 →
      -1 < reconstructR (lumaExpand y) (chromaExpand f.cr) ∧ -1 < reconstructB (lumaExpand y) (chromaExpand f.cb) ∧
      -1 < reconstructG (lumaExpand y) (chromaExpand f.cb) (chromaExpand f.cr)) ∧
    f.a0 = 937#12 ∧ f.a1 = 937#12)

/-- The two lanes of a group share its chroma (40_decode_ycbcra_to_rgba.md section 5): equal luma samples decode to equal
R, G, B. -/
def Obligations.EqualLumaEqualColour : Prop :=
  ∀ (table : Narrow8Table) (f : YCbCrA), f.y0 = f.y1 →
    (decodePixels table f).r0 = (decodePixels table f).r1 ∧ (decodePixels table f).g0 = (decodePixels table f).g1 ∧
    (decodePixels table f).b0 = (decodePixels table f).b1

/-! ## ENCODE_FRAME -/

/-- ENCODE_FRAME completes on every input with a good LEN and a grant, for PM = 0 and PM = 1: STATUS = OK, OUT_LEN = LEN,
and the eight bytes of every output group are R162's packing of the quantised values of the input group
(41_encode_rgba_to_ycbcra.md R153, R163): each pixel's alpha and luma from its own samples, Cb and Cr from pixel 1 (R154 to
R161), the codes by name. That the scan index stands at LEN/8 afterwards is the model's choice (log entry 2). -/
def Obligations.EncodeFrameResult : Prop :=
  (∀ (pm : Bool) (p : RGBA), encodePixels pm p =
    { a0 := alphaCode p.a0
      cb := chromaCode (groupCb pm p)
      y0 := lumaCode (pixelLuma pm p.r0 p.g0 p.b0 p.a0)
      a1 := alphaCode p.a1
      cr := chromaCode (groupCr pm p)
      y1 := lumaCode (pixelLuma pm p.r1 p.g1 p.b1 p.a1) }) ∧
  (∀ (s : State) (pm : Bool), s.len.toNat % 8 = 0 → s.allocOk = true →
    ∃ t, exec (.encodeFrame pm) s = .next t ∧ t.status = 0#2 ∧ t.outLen = s.len ∧ t.scan = s.len.toNat / 8 ∧
      ∀ g k, g < s.len.toNat / 8 → k < 8 →
        t.hostReadOut (8 * g + k) = (packEncoded (encodePixels pm (unpackRGBA (s.readGroup g)))).bytes[k]?)

/-- The eight bytes ENCODE_FRAME packs (41_encode_rgba_to_ycbcra.md R162), as numbers: pixel 1's top luma bits stand in
both halves, and what a reader of the layout recovers for pixel 0. -/
def Obligations.EncodedPacking : Prop :=
  ∀ f : YCbCrA,
    (packEncoded f).b0.toNat = f.a0.toNat / 16 ∧
    (packEncoded f).b1.toNat = (f.a0.toNat % 16) * 16 + f.cb.toNat / 64 ∧
    (packEncoded f).b2.toNat = (f.cb.toNat % 64) * 4 + f.y1.toNat / 256 ∧
    (packEncoded f).b3.toNat = f.y0.toNat % 256 ∧
    (packEncoded f).b4.toNat = f.a1.toNat / 16 ∧
    (packEncoded f).b5.toNat = (f.a1.toNat % 16) * 16 + f.cr.toNat / 64 ∧
    (packEncoded f).b6.toNat = (f.cr.toNat % 64) * 4 + f.y1.toNat / 256 ∧
    (packEncoded f).b7.toNat = f.y1.toNat % 256 ∧
    (unpackYCbCrA (packEncoded f)).y0.toNat = (f.y1.toNat / 256) * 256 + f.y0.toNat % 256 ∧
    ((unpackYCbCrA (packEncoded f)).y0 = f.y0 ↔ f.y0.toNat / 256 = f.y1.toNat / 256) ∧
    (packEncoded f).b2.toNat % 4 = (packEncoded f).b6.toNat % 4

/-- The integer form of the encode arithmetic (41_encode_rgba_to_ycbcra.md R164), for both values of PM and both pixels'
luma, and rhaz of a fraction. -/
def Obligations.EncodeIntegerForm : Prop :=
  (∀ (q : RGBA) (r g b al : Byte),
    let n : Int := 2126 * (r.toNat : Int) + 7152 * (g.toNat : Int) + 722 * (b.toNat : Int)
    let p : RGBA := { q with r1 := r, g1 := g, b1 := b, a1 := al }
    0 ≤ n ∧ n ≤ 2550000 ∧
    pixelLuma false r g b al * 876 = ((73 * n : Int) : Rat) / 212500 ∧
    groupCb false p * 896 = ((224 * (10000 * (b.toNat : Int) - n) : Int) : Rat) / 1182945 ∧
    groupCr false p * 896 = ((224 * (10000 * (r.toNat : Int) - n) : Int) : Rat) / 1003935 ∧
    pixelLuma true r g b al * 876 = ((73 * n * (al.toNat : Int) : Int) : Rat) / 54187500 ∧
    groupCb true p * 896 = ((224 * (al.toNat : Int) * (10000 * (b.toNat : Int) - n) : Int) : Rat) / 301650975 ∧
    groupCr true p * 896 = ((224 * (al.toNat : Int) * (10000 * (r.toNat : Int) - n) : Int) : Rat) / 256003425) ∧
  (∀ n d : Int, 0 < d →
    rhaz ((n : Rat) / (d : Rat)) = if 0 ≤ n then (2 * n + d) / (2 * d) else -((-2 * n + d) / (2 * d)))

/-- The clamps never bind (41_encode_rgba_to_ycbcra.md R165), so the codes are the rounded values themselves; a luma value
whose code would fall outside is clamped exactly, but no RGBA input produces one. -/
def Obligations.EncodeClampsNeverBind : Prop :=
  (∀ (pm : Bool) (p : RGBA) (r g b al : Byte),
    (0 ≤ rhaz (pixelLuma pm r g b al * 876) ∧ rhaz (pixelLuma pm r g b al * 876) ≤ 876) ∧
    (64 ≤ lumaPreClamp (pixelLuma pm r g b al) ∧ lumaPreClamp (pixelLuma pm r g b al) ≤ 940) ∧
    (-448 ≤ rhaz (groupCb pm p * 896) ∧ rhaz (groupCb pm p * 896) ≤ 448) ∧
    (-448 ≤ rhaz (groupCr pm p * 896) ∧ rhaz (groupCr pm p * 896) ≤ 448) ∧
    (64 ≤ chromaPreClamp (groupCb pm p) ∧ chromaPreClamp (groupCb pm p) ≤ 960) ∧
    (64 ≤ chromaPreClamp (groupCr pm p) ∧ chromaPreClamp (groupCr pm p) ≤ 960) ∧
    ((lumaCode (pixelLuma pm r g b al)).toNat : Int) = rhaz (pixelLuma pm r g b al * 876) + 64 ∧
    ((chromaCode (groupCb pm p)).toNat : Int) = rhaz (groupCb pm p * 896) + 512 ∧
    ((chromaCode (groupCr pm p)).toNat : Int) = rhaz (groupCr pm p * 896) + 512) ∧
  (∀ yq : Rat, (lumaPreClamp yq < 64 → lumaCode yq = 64#10) ∧ (940 < lumaPreClamp yq → lumaCode yq = 940#10))

/-- The alpha field (41_encode_rgba_to_ycbcra.md R161): the floor, the range, the two zero bits, the rule's values; the
same for PM = 0 and PM = 1. -/
def Obligations.EncodeAlphaField : Prop :=
  (∀ (pm : Bool) (p : RGBA),
    (encodePixels pm p).a0.toNat = p.a0.toNat * 876 / 255 + 61 ∧ (encodePixels pm p).a1.toNat = p.a1.toNat * 876 / 255 + 61 ∧
    61 ≤ (encodePixels pm p).a0.toNat ∧ (encodePixels pm p).a0.toNat ≤ 937 ∧ (encodePixels pm p).a0.extractLsb' 10 2 = 0#2 ∧
    61 ≤ (encodePixels pm p).a1.toNat ∧ (encodePixels pm p).a1.toNat ≤ 937 ∧ (encodePixels pm p).a1.extractLsb' 10 2 = 0#2) ∧
  alphaCode 0#8 = 61#12 ∧ alphaCode 1#8 = 64#12 ∧ alphaCode 2#8 = 67#12 ∧ alphaCode 3#8 = 71#12 ∧
  alphaCode 127#8 = 497#12 ∧ alphaCode 128#8 = 500#12 ∧ alphaCode 254#8 = 933#12 ∧ alphaCode 255#8 = 937#12

/-- Luma quantisation (41_encode_rgba_to_ycbcra.md section 3): round, offset, clamp; an exact half rounds up, as on the
rule's two colours. -/
def Obligations.LumaTiesRoundAwayFromZero : Prop :=
  (∀ yq : Rat, lumaCode yq = BitVec.ofInt 10 (max 64 (min 940 (rhaz (yq * 876) + 64)))) ∧
  (∀ n : Nat, rhaz ((2 * n + 1 : Rat) / 2) = n + 1 ∧ rhaz (-((2 * n + 1 : Rat) / 2)) = -(n + 1)) ∧
  pixelLuma false 115#8 30#8 100#8 255#8 * 876 = 365 / 2 ∧ lumaCode (pixelLuma false 115#8 30#8 100#8 255#8) = 247#10 ∧
  pixelLuma false 55#8 5#8 230#8 255#8 * 876 = 219 / 2 ∧ lumaCode (pixelLuma false 55#8 5#8 230#8 255#8) = 174#10

/-- Premultiplication (41_encode_rgba_to_ycbcra.md R156): each pixel by its own alpha, the alpha itself unchanged; alpha
255 changes nothing, alpha 0 makes the pixel black. -/
def Obligations.PremultiplyByOwnAlpha : Prop :=
  (∀ v al : Byte, colourSample true v al = ((v.toNat : Rat) / 255) * ((al.toNat : Rat) / 255) ∧
    colourSample false v al = (v.toNat : Rat) / 255) ∧
  (∀ p : RGBA, p.a0 = 255#8 → p.a1 = 255#8 → encodePixels true p = encodePixels false p) ∧
  (∀ p : RGBA, p.a0 = 0#8 → (encodePixels true p).y0 = 64#10) ∧
  (∀ p : RGBA, p.a1 = 0#8 → (encodePixels true p).y1 = 64#10 ∧ (encodePixels true p).cb = 512#10 ∧
    (encodePixels true p).cr = 512#10) ∧
  (∀ (p : RGBA) (al : Byte), (encodePixels true { p with a1 := al }).y0 = (encodePixels true p).y0 ∧
    (encodePixels true { p with a0 := al }).y1 = (encodePixels true p).y1) ∧
  (∀ p : RGBA, (encodePixels true p).a0 = (encodePixels false p).a0 ∧ (encodePixels true p).a1 = (encodePixels false p).a1)

/-- Chroma comes from pixel 1 only (41_encode_rgba_to_ycbcra.md R158): its formula, its bounds, and pixel 0 has no
influence on it. -/
def Obligations.ChromaFromSecondPixelOnly : Prop :=
  (∀ (pm : Bool) (p : RGBA),
    let rp := colourSample pm p.r1 p.a1
    let gp := colourSample pm p.g1 p.a1
    let bp := colourSample pm p.b1 p.a1
    let yq := (2126 / 10000 : Rat) * rp + 7152 / 10000 * gp + 722 / 10000 * bp
    groupCb pm p = (bp - yq) / (18556 / 10000) ∧ groupCr pm p = (rp - yq) / (15748 / 10000) ∧
    -1 / 2 ≤ groupCb pm p ∧ groupCb pm p ≤ 1 / 2 ∧ -1 / 2 ≤ groupCr pm p ∧ groupCr pm p ≤ 1 / 2) ∧
  (∀ (pm : Bool) (p q : RGBA), p.r1 = q.r1 → p.g1 = q.g1 → p.b1 = q.b1 → p.a1 = q.a1 →
    (encodePixels pm p).cb = (encodePixels pm q).cb ∧ (encodePixels pm p).cr = (encodePixels pm q).cr) ∧
  (∀ (pm : Bool) (p : RGBA), pm = false ∨ p.a1 = 255#8 →
    (p.r1 = 0#8 → p.g1 = 0#8 → p.b1 = 255#8 → groupCb pm p = 1 / 2) ∧
    (p.r1 = 255#8 → p.g1 = 0#8 → p.b1 = 0#8 → groupCr pm p = 1 / 2))

/-- An ENCODE_FRAME output is safe for COMPRESS_RLE (41_encode_rgba_to_ycbcra.md R167): the first byte of every group is
0x03..0x3A, and after the host's copy (70_reset_and_hazards.md R249) COMPRESS_RLE with a grant ends in OK. -/
def Obligations.EncodedFrameCompresses : Prop :=
  (∀ (pm : Bool) (g : Group), 0x03 ≤ (encodeGroup pm g).b0.toNat ∧ (encodeGroup pm g).b0.toNat ≤ 0x3A) ∧
  (∀ (pm : Bool) (s t : State), exec (.encodeFrame pm) s = .next t → t.status = 0#2 →
    ∃ u, exec .compressRle (t.copyOutToIn.hostMove (.drawAlloc true)) = .next u ∧ u.status = 0#2)

/-- The round trip (41_encode_rgba_to_ycbcra.md section 5): for every colour, two equal opaque pixels encoded without
premultiply and decoded, under every DEC_Y_TOP and every NARROW8, come back within 1 in every channel, with alpha 255. -/
def Obligations.RoundTripWithinOne : Prop :=
  ∀ (top : DecYTop) (table : Narrow8Table) (r g b : Byte),
    let d := unpackRGBA (decodeGroup top table (encodeGroup false ⟨r, g, b, 255#8, r, g, b, 255#8⟩))
    d.r1 = d.r0 ∧ d.g1 = d.g0 ∧ d.b1 = d.b0 ∧ d.a0 = 255#8 ∧ d.a1 = 255#8 ∧
    d.r0.toNat ≤ r.toNat + 1 ∧ r.toNat ≤ d.r0.toNat + 1 ∧ d.g0.toNat ≤ g.toNat + 1 ∧ g.toNat ≤ d.g0.toNat + 1 ∧
    d.b0.toNat ≤ b.toNat + 1 ∧ b.toNat ≤ d.b0.toNat + 1

/-- What the colour operations leave unchanged: everything but STATUS, OUT_LEN, OUT, the scan index and the draw; every
byte of OUT at or beyond LEN; and after an error all of OUT and the scan index. That an unwritten byte of OUT keeps what
it held, that PREV, COUNT and WPTR are there to be kept, and that the scan index is kept after an error, are the model's
choices (log entries 8 and 2). -/
def Obligations.ColourOperationsFrame : Prop :=
  ∀ (i : Instr) (s t : State), i = .decodeFrame ∨ i = .encodeFrame false ∨ i = .encodeFrame true → exec i s = .next t →
    t = { s with
      status := t.status, outLen := t.outLen, outBuf := t.outBuf, scan := t.scan, allocOk := t.allocOk
      allocDraws := t.allocDraws } ∧
    (∀ off, s.len.toNat ≤ off → t.outBuf.read? off = s.outBuf.read? off) ∧
    (t.status ≠ 0#2 → t.outBuf = s.outBuf ∧ t.scan = s.scan)

/-! ## COMPRESS_RLE -/

/-- One scan step (42_rle_compress.md R185, R186): the block at the scan index joins the pending run, or the run is flushed
and the block seeds a new one; the scan index advances by 1 (10_state.md R26). -/
def Obligations.RleScanStep : Prop :=
  ∀ s : State,
    (0 < s.count.toNat → s.readBlock s.scan = s.prev → rleStep s = { s with count := s.count + 1, scan := s.scan + 1 }) ∧
    (s.count.toNat = 0 ∨ s.readBlock s.scan ≠ s.prev →
      (rleStep s).prev = s.readBlock s.scan ∧ (rleStep s).count = 1#64 ∧ (rleStep s).scan = s.scan + 1 ∧
      (rleStep s).outBuf = s.flush.outBuf ∧ (rleStep s).wptr = s.flush.wptr)

/-- The flush of the pending run (42_rle_compress.md R187), in its four cases, wherever the bytes it adds end below 2^64. -/
def Obligations.RleFlush : Prop :=
  ∀ s : State, s.wptr.toNat + 8 * min s.count.toNat 3 < 2 ^ 64 →
    (2 < s.count.toNat → s.flush = { s with
      outBuf := s.outBuf.writeBytes s.wptr.toNat (List.replicate 8 0xFE#8 ++ beBytes 8 s.count.toNat ++ beBytes 8 s.prev.toNat)
      wptr := s.wptr + 24 }) ∧
    (s.count.toNat = 2 → s.flush = { s with
      outBuf := s.outBuf.writeBytes s.wptr.toNat (beBytes 8 s.prev.toNat ++ beBytes 8 s.prev.toNat)
      wptr := s.wptr + 16 }) ∧
    (s.count.toNat = 1 → s.flush = { s with
      outBuf := s.outBuf.writeBytes s.wptr.toNat (beBytes 8 s.prev.toNat)
      wptr := s.wptr + 8 }) ∧
    (s.count.toNat = 0 → s.flush = s)

/-- COUNT and WPTR cannot overflow (42_rle_compress.md section 4): after k steps of any scan COUNT is at most k, and WPTR
is a multiple of 8 and at most 8k, so at most LEN; and COUNT is 0 only before the first block. -/
def Obligations.RleRegistersStayInRange : Prop :=
  ∀ (s : State) (k : Nat), k ≤ s.len.toNat / 8 →
    let u := scanSteps rleStep k { s.startRun with scan := 0 }
    u.scan = k ∧ u.count.toNat ≤ k ∧ u.wptr.toNat % 8 = 0 ∧ u.wptr.toNat ≤ 8 * k ∧ u.wptr.toNat ≤ s.len.toNat ∧
    (u.count = 0#64 ↔ k = 0)

/-- The maximal runs are what 42_rle_compress.md section 4 calls them: they multiply out to the sequence, each has at least
one block, adjacent runs have different blocks, and no other division has these three properties. -/
def Obligations.MaximalRunsDivideTheInput : Prop :=
  ∀ bs : List Block,
    (maximalRuns bs).flatMap (fun r => List.replicate r.2 r.1) = bs ∧
    (∀ r ∈ maximalRuns bs, 1 ≤ r.2) ∧
    (∀ (k : Nat) (r r' : Block × Nat), (maximalRuns bs)[k]? = some r → (maximalRuns bs)[k + 1]? = some r' → r.1 ≠ r'.1) ∧
    (∀ rs : List (Block × Nat), rs.flatMap (fun r => List.replicate r.2 r.1) = bs → (∀ r ∈ rs, 1 ≤ r.2) →
      (∀ (k : Nat) (r r' : Block × Nat), rs[k]? = some r → rs[k + 1]? = some r' → r.1 ≠ r'.1) → rs = maximalRuns bs)

/-- COMPRESS_RLE completes on every input with a good LEN, a grant and no sentinel: STATUS = OK and the valid bytes of OUT
are exactly the closed form of the input's maximal runs; OUT_LEN is the final WPTR (42_rle_compress.md R190, R191).
That WPTR and the scan index keep their last values after the operation is the model's choice (log entry 2). -/
def Obligations.CompressClosedForm : Prop :=
  ∀ s : State, s.len.toNat % 8 = 0 → s.allocOk = true → (∀ b ∈ s.inBlocks, b ≠ sentinel) →
    ∃ t, exec .compressRle s = .next t ∧ t.status = 0#2 ∧ t.outLen = t.wptr ∧ t.scan = s.len.toNat / 8 ∧
      t.outLen.toNat = 8 * (rleClosedForm s.inBlocks).length ∧
      t.outBytes = (blocksBytes (rleClosedForm s.inBlocks)).map some

/-- COMPRESS_RLE is lossless (42_rle_compress.md R194): whenever it succeeds, a conforming reader of its output gets the
input back. -/
def Obligations.CompressLossless : Prop :=
  ∀ s t : State, exec .compressRle s = .next t → t.status = 0#2 →
    ∃ bl : List Block, t.outBytes = (blocksBytes bl).map some ∧ expand bl = some s.inBlocks

/-- The size of the output (42_rle_compress.md R192): min(n, 3) blocks for each maximal run of n; never longer than the
input, as long exactly when no run is longer than 3, and 24 bytes for one run of 3 or more. -/
def Obligations.CompressSize : Prop :=
  ∀ s t : State, exec .compressRle s = .next t → t.status = 0#2 →
    t.outLen.toNat = 8 * ((maximalRuns s.inBlocks).map fun r => min r.2 3).sum ∧
    t.outLen.toNat ≤ s.len.toNat ∧ t.outLen.toNat % 8 = 0 ∧
    (t.outLen = s.len ↔ ∀ r ∈ maximalRuns s.inBlocks, r.2 ≤ 3) ∧
    (∀ (v : Block) (n : Nat), maximalRuns s.inBlocks = [(v, n)] → 3 ≤ n → t.outLen = 24#64)

/-- One run of n ≥ 3 equal blocks becomes one run-record whose count is n, not n + 1 (42_rle_compress.md R189). -/
def Obligations.OneRunOneRecord : Prop :=
  ∀ (s : State) (v : Block), s.len.toNat % 8 = 0 → s.allocOk = true → v ≠ sentinel → 24 ≤ s.len.toNat →
    (∀ g, g < s.len.toNat / 8 → s.readBlock g = v) →
    ∃ t, exec .compressRle s = .next t ∧ t.status = 0#2 ∧ t.outLen = 24#64 ∧
      t.outBytes = (List.replicate 8 0xFE#8 ++ beBytes 8 (s.len.toNat / 8) ++ blockBytes v).map some

/-- What COMPRESS_RLE writes and never writes (42_rle_compress.md section 4, 30_encoding.md section 5): its output is a
stream of records, every run-record has a count of at least 3 and a payload that is not the sentinel, no literal is the
sentinel, and a run-record stands beside no record of the same block. -/
def Obligations.CompressWritesCanonicalRecords : Prop :=
  ∀ s t : State, exec .compressRle s = .next t → t.status = 0#2 →
    ∃ (bl : List Block) (recs : List Instr), t.outBytes = (blocksBytes bl).map some ∧ parseStream bl = some recs ∧
      recs.flatMap encode = blocksBytes bl ∧ (∀ r ∈ recs, recordWritten r = true) ∧
      (∀ (k : Nat) (r r' : Instr), recs[k]? = some r → recs[k + 1]? = some r' → recordBlock r = recordBlock r' →
        (∃ b, r = .literalBlock b) ∧ ∃ b, r' = .literalBlock b)

/-- Compressing an output again (42_rle_compress.md R195), after the host's copy and with a grant: an output that contains
a run-record raises FormatViolation, an output with none is compressed to itself. -/
def Obligations.CompressingAnOutputAgain : Prop :=
  ∀ (s t : State) (bl : List Block) (recs : List Instr), exec .compressRle s = .next t → t.status = 0#2 →
    t.outBytes = (blocksBytes bl).map some → parseStream bl = some recs →
    ∃ u, exec .compressRle (t.copyOutToIn.hostMove (.drawAlloc true)) = .next u ∧
      ((∃ count payload, Instr.runRecord count payload ∈ recs) → sentinel ∈ bl ∧ u.status = 3#2 ∧ u.outLen = 0#64) ∧
      ((∀ count payload, Instr.runRecord count payload ∉ recs) → u.status = 0#2 ∧ u.outBytes = t.outBytes)

/-- Data whose alpha fields are below 0xFE0 never holds a sentinel block (70_reset_and_hazards.md section 3). -/
def Obligations.PeerDataIsNoSentinel : Prop :=
  ∀ (s : State) (g : Nat), (unpackYCbCrA (s.readGroup g)).a0.toNat < 0xFE0 → s.readBlock g ≠ sentinel

/-- What COMPRESS_RLE leaves unchanged: everything but STATUS, OUT_LEN, OUT, its working registers, the scan index and the
draw; every byte of OUT at or beyond the final OUT_LEN; and after an error all of OUT and every working register. That an
unwritten byte of OUT keeps what it held, and that the working registers keep their last values, is the model's choice
(log entries 8 and 2). -/
def Obligations.CompressFrame : Prop :=
  ∀ s t : State, exec .compressRle s = .next t →
    t = { s with
      status := t.status, outLen := t.outLen, outBuf := t.outBuf, prev := t.prev, count := t.count, wptr := t.wptr
      scan := t.scan, allocOk := t.allocOk, allocDraws := t.allocDraws } ∧
    (∀ off, t.outLen.toNat ≤ off → t.outBuf.read? off = s.outBuf.read? off) ∧
    (t.status ≠ 0#2 → t.outBuf = s.outBuf ∧ t.prev = s.prev ∧ t.count = s.count ∧ t.wptr = s.wptr ∧ t.scan = s.scan)

/-! ## The whole machine -/

/-- After reset (10_state.md R36): STATUS = OK, OUT_LEN = 0, so no byte of OUT is valid; and no reset value can affect the
result of an operation: from any other state with the same command, input and draw the result is the same. -/
def Obligations.ResetResult : Prop :=
  State.reset.hostReadStatus = 0#2 ∧ State.reset.hostReadOutLen = 0#64 ∧ (∀ off, State.reset.hostReadOut off = none) ∧
  (∀ (i : Instr) (bs : List Byte) (draw : Bool) (s t : State),
    SameInput ((State.reset.loadInput bs).hostMove (.drawAlloc draw)) s →
    exec i ((State.reset.loadInput bs).hostMove (.drawAlloc draw)) = .next t →
      ∃ t', exec i s = .next t' ∧ SameResult t t')

/-- The invariant holds after reset. -/
def Obligations.ResetIsWellFormed : Prop := State.reset.Inv

/-- Every step keeps the invariant: both memories canonical, OUT_LEN a multiple of 8, no valid output after an error, and
every byte below OUT_LEN written. -/
def Obligations.StepKeepsInvariant : Prop :=
  ∀ s t : State, s.Inv → step s = .next t → t.Inv

/-- Every state that operations and moves of the host lead to, in any order and for any configuration, meets the
invariant. -/
def Obligations.ReachableStatesAreWellFormed : Prop :=
  ∀ s : State, Reachable s → s.Inv

/-- The result of an operation is a function of the command, the input and the draw, and of nothing else (10_state.md R21):
not of WIDTH or HEIGHT, not of an earlier result, not of the working registers, the scan index or IN beyond LEN. -/
def Obligations.ResultDependsOnInputOnly : Prop :=
  ∀ (i : Instr) (s s' t : State), SameInput s s' → exec i s = .next t →
    ∃ t', exec i s' = .next t' ∧ SameResult t t'

/-- All or nothing (20_memory.md R61): after a success every byte below OUT_LEN is there to read, after an error no byte of
OUT has been written and OUT_LEN = 0. -/
def Obligations.AllOrNothing : Prop :=
  ∀ (i : Instr) (s t : State), exec i s = .next t →
    (t.status = 0#2 ∧ ∀ off, off < t.outLen.toNat → ∃ b, t.hostReadOut off = some b) ∨
    (t.status ≠ 0#2 ∧ t.outLen = 0#64 ∧ t.outBuf = s.outBuf)

/-- The output length laws (20_memory.md R63): OUT_LEN = LEN for the colour operations; for COMPRESS_RLE a multiple of 8
that is at most LEN. -/
def Obligations.OutputLengthLaws : Prop :=
  (∀ (i : Instr) (s t : State), i = .decodeFrame ∨ i = .encodeFrame false ∨ i = .encodeFrame true → exec i s = .next t →
    t.status = 0#2 → t.outLen = s.len) ∧
  (∀ s t : State, exec .compressRle s = .next t → t.outLen.toNat % 8 = 0 ∧ t.outLen.toNat ≤ s.len.toNat)

/-- What the host loads is what an operation reads (20_memory.md sections 1 and 7): LEN is the number of bytes, IN holds
them from offset 0, bytes beyond keep what they were, and the result registers and OUT are not touched. -/
def Obligations.LoadedInputReadsBack : Prop :=
  ∀ (s : State) (bs : List Byte), bs.length < 2 ^ 64 →
    (s.loadInput bs).len.toNat = bs.length ∧ (∀ k, k < bs.length → bs[k]? = some ((s.loadInput bs).readIn k)) ∧
    (∀ off, bs.length ≤ off → (s.loadInput bs).readIn off = s.readIn off) ∧
    (s.loadInput bs).outBytes = s.outBytes ∧ (s.loadInput bs).status = s.status ∧ (s.loadInput bs).outLen = s.outLen

/-- What one move of the host changes and leaves (10_state.md R29 to R33), and that STATUS, OUT_LEN and the valid bytes of OUT
stand through any moves until the next operation starts (R37); the copy for chaining (70_reset_and_hazards.md R249) too
leaves them, and IN then holds OUT's valid bytes, LEN their number. The draw as a move is the model's form (log entry 4). -/
def Obligations.HostMovesChangeOnlyTheirTarget : Prop :=
  (∀ (s : State) (v : Byte), s.hostMove (.writeCmd v) = { s with cmd := v }) ∧
  (∀ (s : State) (v : Word32), s.hostMove (.writeWidth v) = { s with width := v }) ∧
  (∀ (s : State) (v : Word32), s.hostMove (.writeHeight v) = { s with height := v }) ∧
  (∀ (s : State) (v : Word64), s.hostMove (.writeLen v) = { s with len := v }) ∧
  (∀ (s : State) (v : Bool), s.hostMove (.drawAlloc v) = { s with allocOk := v }) ∧
  (∀ (s : State) (off : Word64) (v : Byte),
    s.hostMove (.writeIn off v) = { s with inBuf := (s.hostMove (.writeIn off v)).inBuf } ∧
    (s.hostMove (.writeIn off v)).readIn off.toNat = v ∧
    ∀ a, a ≠ off.toNat → (s.hostMove (.writeIn off v)).readIn a = s.readIn a) ∧
  (∀ (s : State) (moves : List HostMove), SameResult s (moves.foldl State.hostMove s)) ∧
  (∀ s : State,
    s.copyOutToIn = { s with inBuf := s.copyOutToIn.inBuf, len := s.outLen } ∧ SameResult s s.copyOutToIn ∧
    (∀ off b, s.hostReadOut off = some b → s.copyOutToIn.readIn off = b) ∧
    (∀ off, s.hostReadOut off = none → s.copyOutToIn.readIn off = s.readIn off))

/-- WIDTH and HEIGHT change nothing (40_decode_ycbcra_to_rgba.md R132, 41_encode_rgba_to_ycbcra.md R166): with other values
in them every operation ends in the same state but for these two registers. -/
def Obligations.WidthAndHeightIgnored : Prop :=
  ∀ (i : Instr) (s t : State) (w h : Word32), exec i s = .next t →
    exec i { s with width := w, height := h } = .next { t with width := w, height := h }

/-- Running the same operation twice on the same command and input, with the same draw, gives the same result
(20_memory.md R62). -/
def Obligations.RepeatGivesSameResult : Prop :=
  ∀ (i : Instr) (s t : State), exec i s = .next t →
    ∃ u, exec i (t.hostMove (.drawAlloc s.allocOk)) = .next u ∧ SameResult t u

/-- An operation never writes the host's registers, IN or the configuration (10_state.md sections 5 and 7, 20_memory.md
section 1). -/
def Obligations.HostSideUnchanged : Prop :=
  ∀ s t : State, step s = .next t →
    t.cmd = s.cmd ∧ t.width = s.width ∧ t.height = s.height ∧ t.len = s.len ∧ t.inBuf = s.inBuf ∧
    t.decYTop = s.decYTop ∧ t.narrow8 = s.narrow8

/-- Every operation ends in a next state, and only the five rows that are no operation are refused; nothing faults
(70_reset_and_hazards.md section 4). -/
def Obligations.EveryOperationEnds : Prop :=
  ∀ s : State, (s.cmd = 0x00#8 ∨ s.cmd = 0x01#8 ∨ s.cmd = 0x02#8 ∨ s.cmd = 0x05#8) ↔ ∃ t, step s = .next t
end

