-- ==== Sys2Proof/Laws/Bytes.lean ====
section
/-!
SUPPORT. The big-endian byte order: composing bytes and writing them are inverse.
-/

namespace Sys2Proof

@[simp] theorem beNat_nil : beNat [] = 0 := rfl

@[simp] theorem beNat_append_singleton (bs : List Byte) (b : Byte) : beNat (bs ++ [b]) = beNat bs * 256 + b.toNat := by
  simp [beNat]

@[simp] theorem beBytes_length (n v : Nat) : (beBytes n v).length = n := by
  induction n generalizing v with
  | zero => rfl
  | succ n ih => simp [beBytes, ih]

@[simp] theorem blockBytes_length (b : Block) : (blockBytes b).length = 8 := beBytes_length 8 _

/-- Composing the written bytes gives the number back, modulo 256^n. -/
theorem beNat_beBytes (n v : Nat) : beNat (beBytes n v) = v % 256 ^ n := by
  induction n generalizing v with
  | zero => simp [beBytes, Nat.mod_one]
  | succ n ih =>
    simp only [beBytes, beNat_append_singleton, ih, BitVec.toNat_ofNat]
    rw [show (2 : Nat) ^ 8 = 256 by norm_num, pow_succ', Nat.mod_mul]
    omega

/-- Writing the composed number gives the bytes back. -/
theorem beBytes_beNat (bs : List Byte) : beBytes bs.length (beNat bs) = bs := by
  induction bs using List.reverseRecOn with
  | nil => rfl
  | append_singleton bs b ih =>
    have h := b.isLt
    simp only [List.length_append, List.length_singleton, beBytes, beNat_append_singleton]
    rw [show (beNat bs * 256 + b.toNat) / 256 = beNat bs by omega, ih]
    congr 2
    apply BitVec.eq_of_toNat_eq
    simp only [BitVec.toNat_ofNat]
    omega

theorem beNat_lt (bs : List Byte) : beNat bs < 256 ^ bs.length := by
  induction bs using List.reverseRecOn with
  | nil => simp
  | append_singleton bs b ih =>
    have h := b.isLt
    simp only [beNat_append_singleton, List.length_append, List.length_singleton, pow_succ]
    omega

/-- A block's bytes compose to the block. -/
theorem ofNat_beNat_blockBytes (b : Block) : BitVec.ofNat 64 (beNat (blockBytes b)) = b := by
  apply BitVec.eq_of_toNat_eq
  have := b.isLt
  simp only [blockBytes, beNat_beBytes, BitVec.toNat_ofNat]
  omega

end Sys2Proof
end

