-- ==== Sys2Proof/Laws/Memory.lean ====
section
/-!
SUPPORT. The laws of the two memories: a read after a write, writes elsewhere, and the canonical form.
-/

namespace Sys2Proof.Machine

@[simp] theorem Memory.read?_nil (a : Nat) : Memory.read? a [] = none := rfl

@[simp] theorem Memory.read?_write_same (a : Nat) (b : Byte) (m : Memory) :
    (Memory.write a b m).read? a = some b := by
  induction m with
  | nil => simp [Memory.write, Memory.read?]
  | cons c m ih =>
    obtain ⟨k, v⟩ := c
    simp only [Memory.write]
    split
    · simp [Memory.read?]
    · split
      · simp [Memory.read?]
      · rename_i h
        rw [Memory.read?, if_neg (fun e => h e.symm)]
        exact ih

theorem Memory.read?_write_other {a a' : Nat} (h : a' ≠ a) (b : Byte) (m : Memory) :
    (Memory.write a b m).read? a' = m.read? a' := by
  induction m with
  | nil => simp [Memory.write, Memory.read?, Ne.symm h]
  | cons c m ih =>
    obtain ⟨k, v⟩ := c
    simp only [Memory.write]
    split
    · simp [Memory.read?, Ne.symm h]
    · split
      · rename_i hak
        subst hak
        simp [Memory.read?, Ne.symm h]
      · simp only [Memory.read?]
        split
        · rfl
        · exact ih

/-- Writing consecutive bytes: inside the range the byte of the list, outside what was there. -/
theorem Memory.read?_writeBytes (a a' : Nat) (bs : List Byte) (m : Memory) :
    (Memory.writeBytes a bs m).read? a' =
      if a ≤ a' ∧ a' < a + bs.length then bs[a' - a]? else m.read? a' := by
  induction bs generalizing a m with
  | nil => simp [Memory.writeBytes]
  | cons b bs ih =>
    simp only [Memory.writeBytes, ih, List.length_cons]
    by_cases h1 : a' = a
    · subst h1
      simp
    · by_cases h2 : a ≤ a' ∧ a' < a + (bs.length + 1)
      · have h3 : a + 1 ≤ a' ∧ a' < a + 1 + bs.length := by omega
        rw [if_pos h3, if_pos h2, show a' - a = (a' - (a + 1)) + 1 by omega, List.getElem?_cons_succ]
      · have h3 : ¬(a + 1 ≤ a' ∧ a' < a + 1 + bs.length) := by omega
        rw [if_neg h3, if_neg h2, Memory.read?_write_other h1]

theorem Memory.read?_writeBytes_outside {a a' : Nat} {bs : List Byte} (h : a' < a ∨ a + bs.length ≤ a') (m : Memory) :
    (Memory.writeBytes a bs m).read? a' = m.read? a' := by
  rw [Memory.read?_writeBytes, if_neg (by omega)]

/-! ## The canonical form -/

/-- Offsets strictly rising, as a chain. -/
theorem Memory.rising_cons (a : Nat) (v : Byte) (m : Memory) :
    Memory.rising ((a, v) :: m) = true ↔ (∀ c ∈ m.head?, a < c.1) ∧ Memory.rising m = true := by
  cases m with
  | nil => simp [Memory.rising]
  | cons c m => obtain ⟨k, w⟩ := c; simp [Memory.rising]

/-- The first offset after a write is the old first offset or the written one. -/
theorem Memory.head?_write (a : Nat) (b : Byte) (m : Memory) :
    ∀ c ∈ (Memory.write a b m).head?, c.1 = a ∨ c ∈ m.head? := by
  cases m with
  | nil => simp [Memory.write]
  | cons c m =>
    obtain ⟨k, v⟩ := c
    simp only [Memory.write]
    split
    · simp
    · split
      · simp
      · simp

theorem Memory.rising_write (a : Nat) (b : Byte) (m : Memory) (h : Memory.rising m = true) :
    Memory.rising (Memory.write a b m) = true := by
  induction m with
  | nil => rfl
  | cons c m ih =>
    obtain ⟨k, v⟩ := c
    have hk := (Memory.rising_cons k v m).1 h
    simp only [Memory.write]
    split
    · rename_i hak
      exact (Memory.rising_cons a b _).2 ⟨by simpa using hak, h⟩
    · split
      · rename_i hak
        subst hak
        exact (Memory.rising_cons a b m).2 hk
      · refine (Memory.rising_cons k v _).2 ⟨fun c hc => ?_, ih hk.2⟩
        rcases Memory.head?_write a b m c hc with e | e
        · omega
        · exact hk.1 c e

theorem Memory.mem_write {a : Nat} {b : Byte} {m : Memory} {c : Host.Cell} (h : c ∈ Memory.write a b m) :
    c = (a, b) ∨ c ∈ m := by
  induction m with
  | nil => simpa [Memory.write] using h
  | cons d m ih =>
    obtain ⟨k, v⟩ := d
    simp only [Memory.write] at h
    split at h
    · simpa using h
    · split at h
      · rcases List.mem_cons.1 h with e | e
        · exact .inl e
        · exact .inr (List.mem_cons_of_mem _ e)
      · rcases List.mem_cons.1 h with e | e
        · exact .inr (by simp [e])
        · exact (ih e).imp_right (List.mem_cons_of_mem _)

theorem Memory.wf_iff (m : Memory) :
    m.wf = true ↔ Memory.rising m = true ∧ ∀ c ∈ m, c.1 < 2 ^ 64 := by
  simp [Memory.wf]

/-- A write at an offset of the address space keeps the canonical form. -/
theorem Memory.wf_write {a : Nat} (ha : a < 2 ^ 64) (b : Byte) {m : Memory} (h : m.wf = true) :
    (Memory.write a b m).wf = true := by
  rw [Memory.wf_iff] at *
  refine ⟨Memory.rising_write a b m h.1, fun c hc => ?_⟩
  rcases Memory.mem_write hc with rfl | e
  · exact ha
  · exact h.2 c e

theorem Memory.wf_writeBytes {a : Nat} {bs : List Byte} (ha : a + bs.length ≤ 2 ^ 64) {m : Memory} (h : m.wf = true) :
    (Memory.writeBytes a bs m).wf = true := by
  induction bs generalizing a m with
  | nil => exact h
  | cons b bs ih =>
    simp only [List.length_cons] at ha
    exact ih (by omega) (Memory.wf_write (by omega) b h)

theorem State.reset_inBuf_wf : State.reset.inBuf.wf = true := rfl

theorem State.reset_outBuf_wf : State.reset.outBuf.wf = true := rfl

end Sys2Proof.Machine
end

