-- ==== Sys2Proof/Laws/State.lean ====
section
/-!
SUPPORT. One lemma per field of State and per named update of it, so that no proof unfolds a record update.
-/

namespace Sys2Proof.Machine

/-! ### raise -/

@[simp] theorem State.raise_cmd (s : State) (e : OpError) : (s.raise e).cmd = s.cmd := rfl
@[simp] theorem State.raise_width (s : State) (e : OpError) : (s.raise e).width = s.width := rfl
@[simp] theorem State.raise_height (s : State) (e : OpError) : (s.raise e).height = s.height := rfl
@[simp] theorem State.raise_len (s : State) (e : OpError) : (s.raise e).len = s.len := rfl
@[simp] theorem State.raise_inBuf (s : State) (e : OpError) : (s.raise e).inBuf = s.inBuf := rfl
@[simp] theorem State.raise_status (s : State) (e : OpError) : (s.raise e).status = statusOf e := rfl
@[simp] theorem State.raise_outLen (s : State) (e : OpError) : (s.raise e).outLen = 0#64 := rfl
@[simp] theorem State.raise_outBuf (s : State) (e : OpError) : (s.raise e).outBuf = s.outBuf := rfl
@[simp] theorem State.raise_prev (s : State) (e : OpError) : (s.raise e).prev = s.prev := rfl
@[simp] theorem State.raise_count (s : State) (e : OpError) : (s.raise e).count = s.count := rfl
@[simp] theorem State.raise_wptr (s : State) (e : OpError) : (s.raise e).wptr = s.wptr := rfl
@[simp] theorem State.raise_scan (s : State) (e : OpError) : (s.raise e).scan = s.scan := rfl
@[simp] theorem State.raise_allocOk (s : State) (e : OpError) : (s.raise e).allocOk = s.allocOk := rfl
@[simp] theorem State.raise_allocDraws (s : State) (e : OpError) : (s.raise e).allocDraws = s.allocDraws := rfl
@[simp] theorem State.raise_decYTop (s : State) (e : OpError) : (s.raise e).decYTop = s.decYTop := rfl
@[simp] theorem State.raise_narrow8 (s : State) (e : OpError) : (s.raise e).narrow8 = s.narrow8 := rfl

/-! ### complete -/

@[simp] theorem State.complete_cmd (s : State) (n : Word64) : (s.complete n).cmd = s.cmd := rfl
@[simp] theorem State.complete_width (s : State) (n : Word64) : (s.complete n).width = s.width := rfl
@[simp] theorem State.complete_height (s : State) (n : Word64) : (s.complete n).height = s.height := rfl
@[simp] theorem State.complete_len (s : State) (n : Word64) : (s.complete n).len = s.len := rfl
@[simp] theorem State.complete_inBuf (s : State) (n : Word64) : (s.complete n).inBuf = s.inBuf := rfl
@[simp] theorem State.complete_status (s : State) (n : Word64) : (s.complete n).status = statusOk := rfl
@[simp] theorem State.complete_outLen (s : State) (n : Word64) : (s.complete n).outLen = n := rfl
@[simp] theorem State.complete_outBuf (s : State) (n : Word64) : (s.complete n).outBuf = s.outBuf := rfl
@[simp] theorem State.complete_prev (s : State) (n : Word64) : (s.complete n).prev = s.prev := rfl
@[simp] theorem State.complete_count (s : State) (n : Word64) : (s.complete n).count = s.count := rfl
@[simp] theorem State.complete_wptr (s : State) (n : Word64) : (s.complete n).wptr = s.wptr := rfl
@[simp] theorem State.complete_scan (s : State) (n : Word64) : (s.complete n).scan = s.scan := rfl
@[simp] theorem State.complete_allocOk (s : State) (n : Word64) : (s.complete n).allocOk = s.allocOk := rfl
@[simp] theorem State.complete_allocDraws (s : State) (n : Word64) : (s.complete n).allocDraws = s.allocDraws := rfl
@[simp] theorem State.complete_decYTop (s : State) (n : Word64) : (s.complete n).decYTop = s.decYTop := rfl
@[simp] theorem State.complete_narrow8 (s : State) (n : Word64) : (s.complete n).narrow8 = s.narrow8 := rfl

/-! ### nextDraw -/

@[simp] theorem State.nextDraw_cmd (s : State) : s.nextDraw.cmd = s.cmd := rfl
@[simp] theorem State.nextDraw_width (s : State) : s.nextDraw.width = s.width := rfl
@[simp] theorem State.nextDraw_height (s : State) : s.nextDraw.height = s.height := rfl
@[simp] theorem State.nextDraw_len (s : State) : s.nextDraw.len = s.len := rfl
@[simp] theorem State.nextDraw_inBuf (s : State) : s.nextDraw.inBuf = s.inBuf := rfl
@[simp] theorem State.nextDraw_status (s : State) : s.nextDraw.status = s.status := rfl
@[simp] theorem State.nextDraw_outLen (s : State) : s.nextDraw.outLen = s.outLen := rfl
@[simp] theorem State.nextDraw_outBuf (s : State) : s.nextDraw.outBuf = s.outBuf := rfl
@[simp] theorem State.nextDraw_prev (s : State) : s.nextDraw.prev = s.prev := rfl
@[simp] theorem State.nextDraw_count (s : State) : s.nextDraw.count = s.count := rfl
@[simp] theorem State.nextDraw_wptr (s : State) : s.nextDraw.wptr = s.wptr := rfl
@[simp] theorem State.nextDraw_scan (s : State) : s.nextDraw.scan = s.scan := rfl
@[simp] theorem State.nextDraw_allocOk (s : State) : s.nextDraw.allocOk = Config.allocDraw s.allocDraws := rfl
@[simp] theorem State.nextDraw_allocDraws (s : State) : s.nextDraw.allocDraws = s.allocDraws + 1 := rfl
@[simp] theorem State.nextDraw_decYTop (s : State) : s.nextDraw.decYTop = s.decYTop := rfl
@[simp] theorem State.nextDraw_narrow8 (s : State) : s.nextDraw.narrow8 = s.narrow8 := rfl

/-! ### advance -/

@[simp] theorem State.advance_cmd (s : State) : s.advance.cmd = s.cmd := rfl
@[simp] theorem State.advance_width (s : State) : s.advance.width = s.width := rfl
@[simp] theorem State.advance_height (s : State) : s.advance.height = s.height := rfl
@[simp] theorem State.advance_len (s : State) : s.advance.len = s.len := rfl
@[simp] theorem State.advance_inBuf (s : State) : s.advance.inBuf = s.inBuf := rfl
@[simp] theorem State.advance_status (s : State) : s.advance.status = s.status := rfl
@[simp] theorem State.advance_outLen (s : State) : s.advance.outLen = s.outLen := rfl
@[simp] theorem State.advance_outBuf (s : State) : s.advance.outBuf = s.outBuf := rfl
@[simp] theorem State.advance_prev (s : State) : s.advance.prev = s.prev := rfl
@[simp] theorem State.advance_count (s : State) : s.advance.count = s.count := rfl
@[simp] theorem State.advance_wptr (s : State) : s.advance.wptr = s.wptr := rfl
@[simp] theorem State.advance_scan (s : State) : s.advance.scan = s.scan + 1 := rfl
@[simp] theorem State.advance_allocOk (s : State) : s.advance.allocOk = s.allocOk := rfl
@[simp] theorem State.advance_allocDraws (s : State) : s.advance.allocDraws = s.allocDraws := rfl
@[simp] theorem State.advance_decYTop (s : State) : s.advance.decYTop = s.decYTop := rfl
@[simp] theorem State.advance_narrow8 (s : State) : s.advance.narrow8 = s.narrow8 := rfl

/-! ### writeOut -/

@[simp] theorem State.writeOut_cmd (a : Nat) (bs : List Byte) (s : State) : (s.writeOut a bs).cmd = s.cmd := rfl
@[simp] theorem State.writeOut_width (a : Nat) (bs : List Byte) (s : State) : (s.writeOut a bs).width = s.width := rfl
@[simp] theorem State.writeOut_height (a : Nat) (bs : List Byte) (s : State) : (s.writeOut a bs).height = s.height := rfl
@[simp] theorem State.writeOut_len (a : Nat) (bs : List Byte) (s : State) : (s.writeOut a bs).len = s.len := rfl
@[simp] theorem State.writeOut_inBuf (a : Nat) (bs : List Byte) (s : State) : (s.writeOut a bs).inBuf = s.inBuf := rfl
@[simp] theorem State.writeOut_status (a : Nat) (bs : List Byte) (s : State) : (s.writeOut a bs).status = s.status := rfl
@[simp] theorem State.writeOut_outLen (a : Nat) (bs : List Byte) (s : State) : (s.writeOut a bs).outLen = s.outLen := rfl
@[simp] theorem State.writeOut_outBuf (a : Nat) (bs : List Byte) (s : State) : (s.writeOut a bs).outBuf = s.outBuf.writeBytes a bs := rfl
@[simp] theorem State.writeOut_prev (a : Nat) (bs : List Byte) (s : State) : (s.writeOut a bs).prev = s.prev := rfl
@[simp] theorem State.writeOut_count (a : Nat) (bs : List Byte) (s : State) : (s.writeOut a bs).count = s.count := rfl
@[simp] theorem State.writeOut_wptr (a : Nat) (bs : List Byte) (s : State) : (s.writeOut a bs).wptr = s.wptr := rfl
@[simp] theorem State.writeOut_scan (a : Nat) (bs : List Byte) (s : State) : (s.writeOut a bs).scan = s.scan := rfl
@[simp] theorem State.writeOut_allocOk (a : Nat) (bs : List Byte) (s : State) : (s.writeOut a bs).allocOk = s.allocOk := rfl
@[simp] theorem State.writeOut_allocDraws (a : Nat) (bs : List Byte) (s : State) : (s.writeOut a bs).allocDraws = s.allocDraws := rfl
@[simp] theorem State.writeOut_decYTop (a : Nat) (bs : List Byte) (s : State) : (s.writeOut a bs).decYTop = s.decYTop := rfl
@[simp] theorem State.writeOut_narrow8 (a : Nat) (bs : List Byte) (s : State) : (s.writeOut a bs).narrow8 = s.narrow8 := rfl

/-! ### emitBlock -/

@[simp] theorem State.emitBlock_cmd (v : Block) (s : State) : (s.emitBlock v).cmd = s.cmd := rfl
@[simp] theorem State.emitBlock_width (v : Block) (s : State) : (s.emitBlock v).width = s.width := rfl
@[simp] theorem State.emitBlock_height (v : Block) (s : State) : (s.emitBlock v).height = s.height := rfl
@[simp] theorem State.emitBlock_len (v : Block) (s : State) : (s.emitBlock v).len = s.len := rfl
@[simp] theorem State.emitBlock_inBuf (v : Block) (s : State) : (s.emitBlock v).inBuf = s.inBuf := rfl
@[simp] theorem State.emitBlock_status (v : Block) (s : State) : (s.emitBlock v).status = s.status := rfl
@[simp] theorem State.emitBlock_outLen (v : Block) (s : State) : (s.emitBlock v).outLen = s.outLen := rfl
@[simp] theorem State.emitBlock_outBuf (v : Block) (s : State) : (s.emitBlock v).outBuf = s.outBuf.writeBytes s.wptr.toNat (blockBytes v) := rfl
@[simp] theorem State.emitBlock_prev (v : Block) (s : State) : (s.emitBlock v).prev = s.prev := rfl
@[simp] theorem State.emitBlock_count (v : Block) (s : State) : (s.emitBlock v).count = s.count := rfl
@[simp] theorem State.emitBlock_wptr (v : Block) (s : State) : (s.emitBlock v).wptr = s.wptr + 8 := rfl
@[simp] theorem State.emitBlock_scan (v : Block) (s : State) : (s.emitBlock v).scan = s.scan := rfl
@[simp] theorem State.emitBlock_allocOk (v : Block) (s : State) : (s.emitBlock v).allocOk = s.allocOk := rfl
@[simp] theorem State.emitBlock_allocDraws (v : Block) (s : State) : (s.emitBlock v).allocDraws = s.allocDraws := rfl
@[simp] theorem State.emitBlock_decYTop (v : Block) (s : State) : (s.emitBlock v).decYTop = s.decYTop := rfl
@[simp] theorem State.emitBlock_narrow8 (v : Block) (s : State) : (s.emitBlock v).narrow8 = s.narrow8 := rfl

/-! ### startRun -/

@[simp] theorem State.startRun_cmd (s : State) : s.startRun.cmd = s.cmd := rfl
@[simp] theorem State.startRun_width (s : State) : s.startRun.width = s.width := rfl
@[simp] theorem State.startRun_height (s : State) : s.startRun.height = s.height := rfl
@[simp] theorem State.startRun_len (s : State) : s.startRun.len = s.len := rfl
@[simp] theorem State.startRun_inBuf (s : State) : s.startRun.inBuf = s.inBuf := rfl
@[simp] theorem State.startRun_status (s : State) : s.startRun.status = s.status := rfl
@[simp] theorem State.startRun_outLen (s : State) : s.startRun.outLen = s.outLen := rfl
@[simp] theorem State.startRun_outBuf (s : State) : s.startRun.outBuf = s.outBuf := rfl
@[simp] theorem State.startRun_prev (s : State) : s.startRun.prev = s.prev := rfl
@[simp] theorem State.startRun_count (s : State) : s.startRun.count = 0 := rfl
@[simp] theorem State.startRun_wptr (s : State) : s.startRun.wptr = 0 := rfl
@[simp] theorem State.startRun_scan (s : State) : s.startRun.scan = s.scan := rfl
@[simp] theorem State.startRun_allocOk (s : State) : s.startRun.allocOk = s.allocOk := rfl
@[simp] theorem State.startRun_allocDraws (s : State) : s.startRun.allocDraws = s.allocDraws := rfl
@[simp] theorem State.startRun_decYTop (s : State) : s.startRun.decYTop = s.decYTop := rfl
@[simp] theorem State.startRun_narrow8 (s : State) : s.startRun.narrow8 = s.narrow8 := rfl

end Sys2Proof.Machine
end

