-- ==== Sys2Proof/Laws/Ops.lean ====
section
/-!
SUPPORT. What each shared operation does, once: the guard, the scan, reading a group and a block, and the colour
operations' scan of the whole input.
-/

namespace Sys2Proof.Machine

/-! ## The guard (60_exceptions.md R215) -/

theorem guarded_invalidLength {s : State} (h : s.len.toNat % 8 ≠ 0) (request : Nat) (body : State → State) :
    guarded request body s = s.raise .invalidLength := if_pos h

theorem guarded_allocationFailure {s : State} (h : s.len.toNat % 8 = 0) (ha : s.allocOk = false) (request : Nat)
    (body : State → State) : guarded request body s = s.nextDraw.raise .allocationFailure := by
  simp [guarded, groupBytes, State.granted, h, ha]

theorem guarded_runs {s : State} (h : s.len.toNat % 8 = 0) (ha : s.allocOk = true) (request : Nat)
    (body : State → State) : guarded request body s = body s.nextDraw := by
  simp [guarded, groupBytes, State.granted, h, ha]

/-- Everything the guard can do. -/
theorem guarded_cases (request : Nat) (body : State → State) (s : State) :
    (s.len.toNat % 8 ≠ 0 ∧ guarded request body s = s.raise .invalidLength) ∨
    (s.len.toNat % 8 = 0 ∧ s.allocOk = false ∧ guarded request body s = s.nextDraw.raise .allocationFailure) ∨
    (s.len.toNat % 8 = 0 ∧ s.allocOk = true ∧ guarded request body s = body s.nextDraw) := by
  by_cases h : s.len.toNat % 8 = 0
  · cases ha : s.allocOk
    · exact .inr (.inl ⟨h, rfl, guarded_allocationFailure h ha request body⟩)
    · exact .inr (.inr ⟨h, rfl, guarded_runs h ha request body⟩)
  · exact .inl ⟨h, guarded_invalidLength h request body⟩

/-! ## The scan -/

@[simp] theorem scanSteps_zero (body : State → State) (s : State) : scanSteps body 0 s = s := rfl

/-- The last step of a scan. -/
theorem scanSteps_succ (body : State → State) (n : Nat) (s : State) :
    scanSteps body (n + 1) s = body (scanSteps body n s) := by
  induction n generalizing s with
  | zero => rfl
  | succ n ih => exact ih (body s)

/-- What every step carries from k to k + 1 holds after the scan. -/
theorem scanSteps_induction {body : State → State} {P : Nat → State → Prop} {s : State} (n : Nat) (h0 : P 0 s)
    (hs : ∀ k t, k < n → P k t → P (k + 1) (body t)) : P n (scanSteps body n s) := by
  induction n with
  | zero => exact h0
  | succ n ih =>
    rw [scanSteps_succ]
    exact hs n _ (Nat.lt_succ_self n) (ih fun k t hk => hs k t (Nat.lt_succ_of_lt hk))

/-! ## Reading IN -/

/-- A read of IN sees nothing of the state but IN. -/
theorem State.readIn_congr {s t : State} (h : s.inBuf = t.inBuf) (off : Nat) : s.readIn off = t.readIn off := by
  simp [State.readIn, h]

theorem State.readGroup_congr {s t : State} {g : Nat} (h : ∀ k, k < 8 → s.readIn (8 * g + k) = t.readIn (8 * g + k)) :
    s.readGroup g = t.readGroup g := by
  simp only [State.readGroup, groupBytes, Group.mk.injEq]
  exact ⟨h 0 (by omega), h 1 (by omega), h 2 (by omega), h 3 (by omega), h 4 (by omega), h 5 (by omega),
    h 6 (by omega), h 7 (by omega)⟩

theorem State.memRead_congr {s t : State} {addr n : Nat} (h : ∀ k, k < n → s.readIn (addr + k) = t.readIn (addr + k)) :
    s.memRead addr n = t.memRead addr n := by
  induction n with
  | zero => rfl
  | succ n ih =>
    simp only [State.memRead, ih fun k hk => h k (Nat.lt_succ_of_lt hk), h n (Nat.lt_succ_self n)]

theorem State.readBlock_congr {s t : State} {g : Nat} (h : ∀ k, k < 8 → s.readIn (8 * g + k) = t.readIn (8 * g + k)) :
    s.readBlock g = t.readBlock g := by
  simp only [State.readBlock, groupBytes, State.memRead_congr h]

/-- MemRead is the big-endian composition of the bytes read (00_scope.md section 5). -/
theorem State.memRead_eq_beNat (s : State) (addr n : Nat) :
    s.memRead addr n = beNat ((List.range n).map fun k => s.readIn (addr + k)) := by
  induction n with
  | zero => rfl
  | succ n ih => simp [State.memRead, ih, List.range_succ]

/-- A group is its eight bytes. -/
theorem State.readGroup_bytes (s : State) (g : Nat) :
    (s.readGroup g).bytes = (List.range 8).map fun k => s.readIn (8 * g + k) := rfl

/-- A block is the big-endian composition of the group at the same offsets. -/
theorem State.blockBytes_readBlock (s : State) (g : Nat) : blockBytes (s.readBlock g) = (s.readGroup g).bytes := by
  have hlt := beNat_lt ((s.readGroup g).bytes)
  have h8 : ((s.readGroup g).bytes).length = 8 := rfl
  have hm : s.memRead (groupBytes * g) 8 = beNat ((s.readGroup g).bytes) := by
    rw [State.memRead_eq_beNat, State.readGroup_bytes]; rfl
  rw [h8] at hlt
  rw [State.readBlock, hm, blockBytes, BitVec.toNat_ofNat, Nat.mod_eq_of_lt (by omega)]
  exact beBytes_beNat ((s.readGroup g).bytes)

@[simp] theorem Group.bytes_length (g : Group) : g.bytes.length = 8 := rfl

/-! ## The scan of a colour operation (20_memory.md R60) -/

/-- The whole effect of a colour scan: OUT below 8·(LEN/8) is the transformed input, group by group, the scan index
stands at LEN/8, and nothing else has changed. -/
theorem scanInput_transformStep (f : Group → Group) (s : State) :
    ∃ m, scanInput (transformStep f) s = { s with scan := s.groupCount, outBuf := m } ∧
      (∀ off, m.read? off =
        if off < 8 * s.groupCount then (f (s.readGroup (off / 8))).bytes[off % 8]? else s.outBuf.read? off) ∧
      (s.outBuf.wf = true → m.wf = true) := by
  have hcount : 8 * s.groupCount ≤ 2 ^ 64 := by
    have := s.len.isLt
    simp only [State.groupCount, groupBytes]
    omega
  suffices h : ∀ n, n ≤ s.groupCount → ∃ m,
      scanSteps (transformStep f) n { s with scan := 0 } = { s with scan := n, outBuf := m } ∧
      (∀ off, m.read? off =
        if off < 8 * n then (f (s.readGroup (off / 8))).bytes[off % 8]? else s.outBuf.read? off) ∧
      (s.outBuf.wf = true → m.wf = true) from h _ (Nat.le_refl _)
  intro n
  induction n with
  | zero => exact fun _ => ⟨s.outBuf, rfl, fun off => by simp, id⟩
  | succ n ih =>
    intro hn
    obtain ⟨m, hs, hread, hwf⟩ := ih (by omega)
    have hg : ({ s with scan := n, outBuf := m } : State).readGroup n = s.readGroup n :=
      State.readGroup_congr fun k _ => State.readIn_congr rfl _
    refine ⟨m.writeBytes (8 * n) (f (s.readGroup n)).bytes, ?_, fun off => ?_, fun h => ?_⟩
    · rw [scanSteps_succ, hs]
      simp only [transformStep, hg, groupBytes]
      rfl
    · rw [Memory.read?_writeBytes, hread, Group.bytes_length]
      by_cases h1 : 8 * n ≤ off ∧ off < 8 * n + 8
      · rw [if_pos h1, if_pos (by omega), show off / 8 = n by omega, show off % 8 = off - 8 * n by omega]
      · rw [if_neg h1]
        by_cases h2 : off < 8 * n
        · rw [if_pos h2, if_pos (by omega)]
        · rw [if_neg h2, if_neg (by omega)]
    · refine Memory.wf_writeBytes ?_ (hwf h)
      rw [Group.bytes_length]
      omega

end Sys2Proof.Machine
end

