-- ==== Sys2Proof/Laws/HostPort.lean ====
section
/-!
SUPPORT. What the host sees of OUT, and what its copy of OUT to IN does (70_reset_and_hazards.md R249).
-/

namespace Sys2Proof.Machine

@[simp] theorem State.outBytes_length (s : State) : s.outBytes.length = s.outLen.toNat := by simp [State.outBytes]

theorem State.hostReadOut_of_lt {s : State} {off : Nat} (h : off < s.outLen.toNat) :
    s.hostReadOut off = s.outBuf.read? off := if_pos h

theorem State.hostReadOut_of_ge {s : State} {off : Nat} (h : s.outLen.toNat ≤ off) : s.hostReadOut off = none :=
  if_neg (Nat.not_lt.2 h)

/-- When OUT holds a list of bytes from offset 0 and OUT_LEN is its length, the host reads that list. -/
theorem State.outBytes_of_writeBytes {s : State} {bs : List Byte} {m : Memory} (hm : s.outBuf = m.writeBytes 0 bs)
    (hl : s.outLen.toNat = bs.length) : s.outBytes = bs.map some := by
  apply List.ext_getElem?
  intro k
  simp only [State.outBytes, List.getElem?_map]
  by_cases h : k < bs.length
  · rw [List.getElem?_range (by omega), List.getElem?_eq_getElem h]
    simp only [Option.map_some]
    rw [State.hostReadOut_of_lt (by omega), hm, Memory.read?_writeBytes, if_pos (by omega), Nat.sub_zero,
      List.getElem?_eq_getElem h]
  · rw [List.getElem?_eq_none (by simpa using by omega), List.getElem?_eq_none (by omega)]
    rfl

/-! ### What no move of the host changes -/

@[simp] theorem State.hostMove_status (s : State) (m : HostMove) : (s.hostMove m).status = s.status := by cases m <;> rfl
@[simp] theorem State.hostMove_outLen (s : State) (m : HostMove) : (s.hostMove m).outLen = s.outLen := by cases m <;> rfl
@[simp] theorem State.hostMove_outBuf (s : State) (m : HostMove) : (s.hostMove m).outBuf = s.outBuf := by cases m <;> rfl
@[simp] theorem State.hostMove_decYTop (s : State) (m : HostMove) : (s.hostMove m).decYTop = s.decYTop := by cases m <;> rfl
@[simp] theorem State.hostMove_narrow8 (s : State) (m : HostMove) : (s.hostMove m).narrow8 = s.narrow8 := by cases m <;> rfl
@[simp] theorem State.hostMove_hostReadOut (s : State) (m : HostMove) (off : Nat) :
    (s.hostMove m).hostReadOut off = s.hostReadOut off := by cases m <;> rfl

/-! ### The copy for chaining -/

/-- The copy changes IN alone. -/
theorem State.copyBytes_frame (s : State) (n : Nat) : s.copyBytes n = { s with inBuf := (s.copyBytes n).inBuf } := by
  induction n with
  | zero => rfl
  | succ n ih =>
    simp only [State.copyBytes]
    split
    · rw [ih]
    · exact ih

/-- After the copy of n bytes an offset below n of IN holds OUT's byte, where OUT has one, and the rest of IN is as
before. -/
theorem State.copyBytes_read (s : State) (n off : Nat) :
    (s.copyBytes n).inBuf.read? off =
      if off < n then (s.hostReadOut off).or (s.inBuf.read? off) else s.inBuf.read? off := by
  induction n with
  | zero => simp [State.copyBytes]
  | succ n ih =>
    have hf := s.copyBytes_frame n
    have ho : (s.copyBytes n).hostReadOut n = s.hostReadOut n := by rw [hf]; rfl
    simp only [State.copyBytes, ho]
    by_cases hn : off = n
    · subst hn
      rw [if_pos (Nat.lt_succ_self off)]
      split
      · rename_i b hb
        rw [hb]
        simp
      · rename_i hb
        rw [hb, ih, if_neg (Nat.lt_irrefl off)]
        rfl
    · have hlt : (off < n + 1) ↔ off < n := by omega
      simp only [hlt]
      split
      · exact (Memory.read?_write_other hn _ _).trans ih
      · exact ih

/-- After the host's copy, IN holds the valid bytes of OUT and LEN is OUT_LEN. -/
theorem State.copyOutToIn_readIn {s : State} {off : Nat} {b : Byte} (h : s.hostReadOut off = some b) :
    s.copyOutToIn.readIn off = b := by
  have hlt : off < s.outLen.toNat := by
    by_contra hge
    rw [State.hostReadOut_of_ge (Nat.not_lt.1 hge)] at h
    cases h
  have hr : s.copyOutToIn.inBuf.read? off = some b := by
    change (s.copyBytes s.outLen.toNat).inBuf.read? off = some b
    rw [State.copyBytes_read, if_pos hlt, h]
    rfl
  simp [State.readIn, hr]

@[simp] theorem State.copyOutToIn_len (s : State) : s.copyOutToIn.len = s.outLen := rfl

end Sys2Proof.Machine
end

