-- ==== Sys2Proof/Laws/Rle.lean ====
section
/-!
SUPPORT. What the RLE unit's operations do, once: emitting blocks, the flush (42_rle_compress.md R187), a scan step
(R185, R186).
-/

namespace Sys2Proof.Machine

@[simp] theorem blocksBytes_nil : blocksBytes [] = [] := rfl

@[simp] theorem blocksBytes_cons (b : Block) (bs : List Block) :
    blocksBytes (b :: bs) = blockBytes b ++ blocksBytes bs := rfl

@[simp] theorem blocksBytes_append (bs cs : List Block) : blocksBytes (bs ++ cs) = blocksBytes bs ++ blocksBytes cs := by
  simp [blocksBytes]

@[simp] theorem blocksBytes_length (bs : List Block) : (blocksBytes bs).length = 8 * bs.length := by
  induction bs with
  | nil => rfl
  | cons b bs ih => simp [ih]; omega

theorem Memory.writeBytes_append (a : Nat) (bs cs : List Byte) (m : Memory) :
    Memory.writeBytes a (bs ++ cs) m = Memory.writeBytes (a + bs.length) cs (Memory.writeBytes a bs m) := by
  induction bs generalizing a m with
  | nil => rfl
  | cons b bs ih => simp only [List.cons_append, Memory.writeBytes, ih, List.length_cons]; congr 1; omega

/-- A maximal run contributes min(n, 3) blocks (R192). -/
theorem runBlocks_length (v : Block) (n : Nat) : (runBlocks (v, n)).length = min n 3 := by
  by_cases h : runMin ≤ n
  · have h3 : 3 ≤ n := h
    simp [runBlocks, h, h3]
  · have h3 : n < 3 := Nat.lt_of_not_le h
    simp [runBlocks, h, Nat.min_eq_left (Nat.le_of_lt h3)]

/-- WPTR after a block that fits. -/
theorem wptr_add_eight {w : Word64} (h : w.toNat + 8 < 2 ^ 64) : (w + 8).toNat = w.toNat + 8 := by
  rw [BitVec.toNat_add]
  exact Nat.mod_eq_of_lt h

/-- Emitting a list of blocks one after another. -/
def State.emitAll (s : State) : List Block → State
  | [] => s
  | b :: bs => State.emitAll (s.emitBlock b) bs

/-- Emitting blocks writes their bytes at WPTR and moves WPTR past them; nothing else changes. -/
theorem State.emitAll_eq (s : State) (bs : List Block) (hw : s.wptr.toNat + 8 * bs.length < 2 ^ 64) :
    s.emitAll bs = { s with
      outBuf := s.outBuf.writeBytes s.wptr.toNat (blocksBytes bs)
      wptr := s.wptr + BitVec.ofNat 64 (8 * bs.length) } := by
  induction bs generalizing s with
  | nil => simp [State.emitAll, Memory.writeBytes]
  | cons b bs ih =>
    simp only [List.length_cons] at hw
    have h8 : (s.wptr + 8).toNat = s.wptr.toNat + 8 := wptr_add_eight (by omega)
    have hadd : s.wptr + 8 + BitVec.ofNat 64 (8 * bs.length) = s.wptr + BitVec.ofNat 64 (8 * (bs.length + 1)) := by
      apply BitVec.eq_of_toNat_eq
      rw [BitVec.toNat_add, h8, BitVec.toNat_add]
      simp only [BitVec.toNat_ofNat]
      omega
    rw [State.emitAll, ih _ (by rw [State.emitBlock_wptr, h8]; omega)]
    simp only [State.emitBlock_wptr, State.emitBlock_outBuf, h8, hadd, blocksBytes_cons, Memory.writeBytes_append,
      blockBytes_length, List.length_cons]
    rfl

/-- The flush emits the pending run's contribution (R187). -/
theorem State.flush_eq_emitAll (s : State) : s.flush = s.emitAll (runBlocks (s.prev, s.count.toNat)) := by
  by_cases h3 : runMin ≤ s.count.toNat
  · simp only [State.flush, runBlocks, if_pos h3, BitVec.ofNat_toNat, BitVec.setWidth_eq, State.emitAll]
  · have hlt : s.count.toNat < 3 := Nat.lt_of_not_le h3
    simp only [State.flush, runBlocks, if_neg h3]
    by_cases h2 : s.count = 2
    · rw [if_pos h2, show s.count.toNat = 2 by rw [h2]; rfl]
      rfl
    · rw [if_neg h2]
      by_cases h1 : s.count = 1
      · rw [if_pos h1, show s.count.toNat = 1 by rw [h1]; rfl]
        rfl
      · have n2 : s.count.toNat ≠ 2 := fun e => h2 (BitVec.eq_of_toNat_eq e)
        have n1 : s.count.toNat ≠ 1 := fun e => h1 (BitVec.eq_of_toNat_eq e)
        rw [if_neg h1, show s.count.toNat = 0 by omega]
        rfl

/-- The flush writes the pending run's contribution at WPTR and moves WPTR past it; nothing else changes (R187). -/
theorem State.flush_eq (s : State) (hw : s.wptr.toNat + 8 * min s.count.toNat 3 < 2 ^ 64) :
    s.flush = { s with
      outBuf := s.outBuf.writeBytes s.wptr.toNat (blocksBytes (runBlocks (s.prev, s.count.toNat)))
      wptr := s.wptr + BitVec.ofNat 64 (8 * min s.count.toNat 3) } := by
  rw [State.flush_eq_emitAll, State.emitAll_eq _ _ (by rwa [runBlocks_length]), runBlocks_length]

/-- Taking a block: it joins the pending run (R185), or the run is flushed and a new one seeded (R186). -/
theorem State.takeBlock_cases (blk : Block) (s : State) :
    (0 < s.count.toNat ∧ blk = s.prev ∧ s.takeBlock blk = { s with count := s.count + 1 }) ∨
    ((s.count.toNat = 0 ∨ blk ≠ s.prev) ∧ s.takeBlock blk = { s.flush with prev := blk, count := 1 }) := by
  by_cases h : 0 < s.count.toNat ∧ blk = s.prev
  · exact .inl ⟨h.1, h.2, if_pos h⟩
  · refine .inr ⟨?_, if_neg h⟩
    by_cases h0 : s.count.toNat = 0
    · exact .inl h0
    · exact .inr fun e => h ⟨Nat.pos_of_ne_zero h0, e⟩

/-- The sentinel check (R183). -/
theorem State.hasSentinel_iff (s : State) :
    s.hasSentinel = true ↔ ∃ g, g < s.groupCount ∧ s.readBlock g = sentinel := by
  simp [State.hasSentinel]

end Sys2Proof.Machine
end

