-- ==== Sys2Proof/Laws/Runs.lean ====
section
/-!
SUPPORT. Maximal runs of a block sequence (42_rle_compress.md R191): a list of runs with positive lengths and different
neighbours is the list of maximal runs of what it multiplies out to.
-/

namespace Sys2Proof.Machine

/-- The sequence a list of runs multiplies out to. -/
def expandRuns (rs : List (Block × Nat)) : List Block := rs.flatMap fun r => List.replicate r.2 r.1

/-- Positive lengths, and no two neighbours with the same block. -/
def RunsProper : List (Block × Nat) → Prop
  | [] => True
  | [r] => 1 ≤ r.2
  | r :: r' :: rs => 1 ≤ r.2 ∧ r.1 ≠ r'.1 ∧ RunsProper (r' :: rs)

@[simp] theorem expandRuns_nil : expandRuns [] = [] := rfl

@[simp] theorem expandRuns_cons (r : Block × Nat) (rs : List (Block × Nat)) :
    expandRuns (r :: rs) = List.replicate r.2 r.1 ++ expandRuns rs := rfl

@[simp] theorem expandRuns_append (rs rs' : List (Block × Nat)) :
    expandRuns (rs ++ rs') = expandRuns rs ++ expandRuns rs' := by simp [expandRuns]

theorem RunsProper.tail {r : Block × Nat} {rs : List (Block × Nat)} (h : RunsProper (r :: rs)) : RunsProper rs := by
  cases rs with
  | nil => trivial
  | cons r' rs => exact h.2.2

theorem RunsProper.head {r : Block × Nat} {rs : List (Block × Nat)} (h : RunsProper (r :: rs)) : 1 ≤ r.2 := by
  cases rs with
  | nil => exact h
  | cons r' rs => exact h.1

/-- A block in front of a sequence joins its first run or starts a new one. -/
theorem maximalRuns_cons_same {v : Block} {n : Nat} {bs : List Block} {rs : List (Block × Nat)}
    (h : maximalRuns bs = (v, n) :: rs) : maximalRuns (v :: bs) = (v, n + 1) :: rs := by
  simp [maximalRuns, h]

theorem maximalRuns_replicate_succ {v : Block} {bs : List Block} {rs : List (Block × Nat)} (n : Nat)
    (h : maximalRuns bs = rs) (hv : ∀ r ∈ rs.head?, v ≠ r.1) :
    maximalRuns (List.replicate (n + 1) v ++ bs) = (v, n + 1) :: rs := by
  induction n with
  | zero =>
    cases rs with
    | nil => simp [maximalRuns, h]
    | cons r rs =>
      obtain ⟨w, k⟩ := r
      have hw : v ≠ w := hv (w, k) (by simp)
      simp [maximalRuns, h, hw]
  | succ n ih => exact maximalRuns_cons_same ih

/-- Proper runs are the maximal runs of what they multiply out to. -/
theorem maximalRuns_expandRuns {rs : List (Block × Nat)} (h : RunsProper rs) : maximalRuns (expandRuns rs) = rs := by
  induction rs with
  | nil => rfl
  | cons r rs ih =>
    obtain ⟨v, n⟩ := r
    obtain ⟨k, rfl⟩ : ∃ k, n = k + 1 := ⟨n - 1, by have := h.head; simp only at this; omega⟩
    refine maximalRuns_replicate_succ k (ih h.tail) fun r hr => ?_
    cases rs with
    | nil => simp at hr
    | cons r' rs =>
      simp only [List.head?_cons, Option.mem_def, Option.some.injEq] at hr
      exact hr ▸ h.2.1

/-- One more block of the same value lengthens the last run. -/
theorem RunsProper.lengthen {rs : List (Block × Nat)} {v : Block} {n : Nat} (h : RunsProper (rs ++ [(v, n)])) :
    RunsProper (rs ++ [(v, n + 1)]) := by
  induction rs with
  | nil => exact Nat.le_add_left 1 n
  | cons r rs ih =>
    cases rs with
    | nil => exact ⟨h.1, h.2.1, Nat.le_add_left 1 n⟩
    | cons r' rs => exact ⟨h.1, h.2.1, ih h.2.2⟩

/-- A block of another value starts a new last run. -/
theorem RunsProper.seed {rs : List (Block × Nat)} {v w : Block} {n : Nat} (h : RunsProper (rs ++ [(v, n)])) (hw : w ≠ v) :
    RunsProper (rs ++ [(v, n)] ++ [(w, 1)]) := by
  induction rs with
  | nil => exact ⟨h, hw.symm, Nat.le_refl 1⟩
  | cons r rs ih =>
    cases rs with
    | nil => exact ⟨h.1, h.2.1, ih h.2.2⟩
    | cons r' rs => exact ⟨h.1, h.2.1, ih h.2.2⟩

/-- What runs contribute is never longer than what they multiply out to (R192). -/
theorem runBlocks_flatMap_length_le (rs : List (Block × Nat)) :
    (rs.flatMap runBlocks).length ≤ (expandRuns rs).length := by
  induction rs with
  | nil => simp
  | cons r rs ih =>
    simp only [List.flatMap_cons, List.length_append, expandRuns_cons, List.length_replicate]
    have h : (runBlocks r).length = min r.2 3 := runBlocks_length r.1 r.2
    omega

end Sys2Proof.Machine
end

