-- ==== Sys2Proof/Laws/RleScan.lean ====
section
/-!
SUPPORT. The scan of COMPRESS_RLE: what PREV, COUNT, WPTR and OUT hold after k steps (42_rle_compress.md R184 to R187).
-/

namespace Sys2Proof.Machine

/-- The first k blocks of the input. -/
def State.firstBlocks (s : State) (k : Nat) : List Block := (List.range k).map s.readBlock

theorem State.inBlocks_eq (s : State) : s.inBlocks = s.firstBlocks s.groupCount := rfl

@[simp] theorem State.firstBlocks_length (s : State) (k : Nat) : (s.firstBlocks k).length = k := by
  simp [State.firstBlocks]

theorem State.firstBlocks_succ (s : State) (k : Nat) : s.firstBlocks (k + 1) = s.firstBlocks k ++ [s.readBlock k] := by
  simp [State.firstBlocks, List.range_succ]

/-- The state of the scan after k steps from s: runs already flushed, and the pending run. -/
structure ScanAt (s : State) (k : Nat) (u : State) (flushed : List (Block × Nat)) : Prop where
  frame : u = { s with scan := k, outBuf := u.outBuf, prev := u.prev, count := u.count, wptr := u.wptr }
  out : u.outBuf = s.outBuf.writeBytes 0 (blocksBytes (flushed.flatMap runBlocks))
  wptr : u.wptr.toNat = 8 * (flushed.flatMap runBlocks).length
  start : k = 0 → flushed = [] ∧ u.count.toNat = 0
  pending : 0 < k → 1 ≤ u.count.toNat
  proper : 0 < k → RunsProper (flushed ++ [(u.prev, u.count.toNat)])
  blocks : expandRuns (flushed ++ [(u.prev, u.count.toNat)]) = s.firstBlocks k

/-- WPTR plus what the pending run will contribute is at most 8k. -/
theorem ScanAt.room {s u : State} {k : Nat} {flushed : List (Block × Nat)} (h : ScanAt s k u flushed) :
    u.wptr.toNat + 8 * min u.count.toNat 3 ≤ 8 * k ∧ u.count.toNat ≤ k := by
  have hl := congrArg List.length h.blocks
  have hle := runBlocks_flatMap_length_le flushed
  simp only [expandRuns_append, List.length_append, expandRuns_cons, expandRuns_nil, List.append_nil,
    List.length_replicate, State.firstBlocks_length] at hl
  rw [h.wptr]
  omega

/-- One step of the scan. -/
theorem ScanAt.step {s u : State} {k : Nat} {flushed : List (Block × Nat)} (h : ScanAt s k u flushed) (hk : k < 2 ^ 61) :
    ∃ flushed', ScanAt s (k + 1) (rleStep u) flushed' := by
  obtain ⟨hroom, hcount⟩ := h.room
  have hscan : u.scan = k := by rw [h.frame]
  have hblk : u.readBlock u.scan = s.readBlock k := by
    rw [hscan]
    exact State.readBlock_congr fun j _ => State.readIn_congr (by rw [h.frame]) _
  have hstep : rleStep u = (u.takeBlock (s.readBlock k)).advance := by rw [rleStep, hblk]
  rcases State.takeBlock_cases (s.readBlock k) u with ⟨hc, hp, ht⟩ | ⟨hc, ht⟩
  · have hk0 : 0 < k := by
      rcases Nat.eq_zero_or_pos k with e | e
      · have := (h.start e).2; omega
      · exact e
    have hinc : (u.count + 1).toNat = u.count.toNat + 1 := by
      rw [BitVec.toNat_add]
      exact Nat.mod_eq_of_lt (by change u.count.toNat + 1 < 2 ^ 64; omega)
    have he : rleStep u = { u with count := u.count + 1, scan := k + 1 } := by
      rw [hstep, ht, State.advance, hscan]
    refine ⟨flushed, ?_⟩
    rw [he]
    refine ⟨?_, h.out, h.wptr, fun e => absurd e (Nat.succ_ne_zero k), fun _ => ?_, fun _ => ?_, ?_⟩
    · rw [h.frame]
    · change 1 ≤ (u.count + 1).toNat; omega
    · change RunsProper (flushed ++ [(u.prev, (u.count + 1).toNat)])
      rw [hinc]
      exact (h.proper hk0).lengthen
    · change expandRuns (flushed ++ [(u.prev, (u.count + 1).toNat)]) = _
      rw [State.firstBlocks_succ, ← h.blocks, hinc, hp]
      simp [List.replicate_succ']
  · have hfl := State.flush_eq u (by omega)
    have he : rleStep u = { u with
        outBuf := u.outBuf.writeBytes u.wptr.toNat (blocksBytes (runBlocks (u.prev, u.count.toNat)))
        wptr := u.wptr + BitVec.ofNat 64 (8 * min u.count.toNat 3)
        prev := s.readBlock k, count := 1, scan := k + 1 } := by
      rw [hstep, ht, hfl, State.advance, hscan]
    have hw : (u.wptr + BitVec.ofNat 64 (8 * min u.count.toNat 3)).toNat = u.wptr.toNat + 8 * min u.count.toNat 3 := by
      rw [BitVec.toNat_add, BitVec.toNat_ofNat]
      omega
    -- the pending run, if there is one, is now flushed
    obtain ⟨done, hdone, hrun⟩ : ∃ done, (flushed ++ [(u.prev, u.count.toNat)]).flatMap runBlocks = done.flatMap runBlocks ∧
        expandRuns (flushed ++ [(u.prev, u.count.toNat)]) = expandRuns done ∧ RunsProper (done ++ [(s.readBlock k, 1)]) := by
      rcases Nat.eq_zero_or_pos k with e | e
      · obtain ⟨hf, h0⟩ := h.start e
        exact ⟨[], by simp [hf, h0, runBlocks, runMin], by simp [hf, h0], Nat.le_refl 1⟩
      · refine ⟨flushed ++ [(u.prev, u.count.toNat)], rfl, rfl, (h.proper e).seed ?_⟩
        rcases hc with h0 | hne
        · have := h.pending e; omega
        · exact hne
    have hlen : (done.flatMap runBlocks).length = (flushed.flatMap runBlocks).length + min u.count.toNat 3 := by
      rw [← hdone]; simp [runBlocks_length]
    refine ⟨done, ?_⟩
    rw [he]
    refine ⟨?_, ?_, ?_, fun e => absurd e (Nat.succ_ne_zero k), fun _ => Nat.le_refl 1, fun _ => hrun.2, ?_⟩
    · rw [h.frame]
    · change u.outBuf.writeBytes _ _ = _
      rw [← hdone, h.out, h.wptr, List.flatMap_append, blocksBytes_append, Memory.writeBytes_append]
      simp
    · change (u.wptr + _).toNat = _
      rw [hw, hlen, h.wptr]
      omega
    · change expandRuns (done ++ [(s.readBlock k, 1)]) = _
      rw [expandRuns_append, ← hrun.1, h.blocks, State.firstBlocks_succ]
      rfl

/-- The scan of COMPRESS_RLE after k steps. -/
theorem rleScan_spec (s : State) (k : Nat) (hk : k < 2 ^ 61) :
    ∃ flushed, ScanAt s.startRun k (scanSteps rleStep k { s.startRun with scan := 0 }) flushed := by
  induction k with
  | zero =>
    exact ⟨[], rfl, rfl, rfl, fun _ => ⟨rfl, rfl⟩, fun h => absurd h (Nat.lt_irrefl 0), fun h => absurd h (Nat.lt_irrefl 0),
      rfl⟩
  | succ k ih =>
    obtain ⟨f, h⟩ := ih (by omega)
    rw [scanSteps_succ]
    exact h.step (by omega)

/-- The input's blocks are read from IN alone. -/
theorem State.firstBlocks_congr {s t : State} (h : s.inBuf = t.inBuf) (k : Nat) : s.firstBlocks k = t.firstBlocks k := by
  exact List.map_congr_left fun g _ => State.readBlock_congr fun j _ => State.readIn_congr h _

theorem State.groupCount_lt (s : State) : s.groupCount < 2 ^ 61 := by
  have := s.len.isLt
  simp only [State.groupCount, groupBytes]
  omega

theorem State.groupCount_le_len (s : State) : 8 * s.groupCount ≤ s.len.toNat := by
  simp only [State.groupCount, groupBytes]
  omega

/-- Everything COMPRESS_RLE's body can do (R183, R188, R190): the sentinel check raises, or OUT gets the closed form from
offset 0 and nothing but the results and the working registers changes. -/
theorem compressBody_cases (s : State) :
    (s.hasSentinel = true ∧ compressBody s = s.raise .formatViolation) ∨
    (s.hasSentinel = false ∧ ∃ prev count wptr,
      compressBody s = { s with
        status := statusOk, outLen := wptr
        outBuf := s.outBuf.writeBytes 0 (blocksBytes (rleClosedForm s.inBlocks))
        prev := prev, count := count, wptr := wptr, scan := s.groupCount } ∧
      wptr.toNat = 8 * (rleClosedForm s.inBlocks).length ∧ wptr.toNat ≤ s.len.toNat) := by
  cases hsent : s.hasSentinel
  · refine .inr ⟨rfl, ?_⟩
    have hk := s.groupCount_lt
    have hle := s.groupCount_le_len
    obtain ⟨flushed, h⟩ := rleScan_spec s s.groupCount hk
    have hg : s.startRun.groupCount = s.groupCount := rfl
    have hscan : scanInput rleStep s.startRun = scanSteps rleStep s.groupCount { s.startRun with scan := 0 } := by
      rw [scanInput, hg]
    rw [← hscan] at h
    generalize hu : scanInput rleStep s.startRun = u at h
    obtain ⟨hroom, -⟩ := h.room
    have hfl := State.flush_eq u (by omega)
    have hruns : (flushed ++ [(u.prev, u.count.toNat)]).flatMap runBlocks = rleClosedForm s.inBlocks := by
      have hin : s.inBlocks = s.startRun.firstBlocks s.groupCount := State.firstBlocks_congr rfl _
      rw [rleClosedForm, hin, ← h.blocks]
      rcases Nat.eq_zero_or_pos s.groupCount with e | e
      · obtain ⟨hf, h0⟩ := h.start e
        rw [hf, h0]
        rfl
      · rw [maximalRuns_expandRuns (h.proper e)]
    have hlen : 8 * (rleClosedForm s.inBlocks).length = u.wptr.toNat + 8 * min u.count.toNat 3 := by
      rw [← hruns, h.wptr]
      simp [runBlocks_length]
      omega
    have hw : (u.wptr + BitVec.ofNat 64 (8 * min u.count.toNat 3)).toNat = 8 * (rleClosedForm s.inBlocks).length := by
      rw [BitVec.toNat_add, BitVec.toNat_ofNat, hlen]
      omega
    refine ⟨u.prev, u.count, u.wptr + BitVec.ofNat 64 (8 * min u.count.toNat 3), ?_, hw, by omega⟩
    have hout : u.outBuf.writeBytes u.wptr.toNat (blocksBytes (runBlocks (u.prev, u.count.toNat))) =
        s.outBuf.writeBytes 0 (blocksBytes (rleClosedForm s.inBlocks)) := by
      rw [← hruns, h.out, h.wptr, List.flatMap_append, blocksBytes_append, Memory.writeBytes_append]
      simp
    simp only [compressBody, hsent, Bool.false_eq_true, if_false, hu, hfl, hout]
    rw [h.frame]
    rfl
  · exact .inl ⟨rfl, if_pos hsent⟩

end Sys2Proof.Machine
end

