-- ==== Sys2Proof/Laws/Meaning.lean ====
section
/-!
SUPPORT. Everything a meaning can do, once for the two colour operations and once for COMPRESS_RLE: the two or three
errors, or success with the whole next state. Later proofs cite these and unfold no meaning.
-/

namespace Sys2Proof.Machine

/-- A colour operation with the group function f: an error, or success. -/
theorem colourOperation_cases (f : Group → Group) (request : Nat) (body : State → State) (s : State)
    (hbody : body s.nextDraw = (scanInput (transformStep f) s.nextDraw).complete s.len) :
    (s.len.toNat % 8 ≠ 0 ∧ guarded request body s = s.raise .invalidLength) ∨
    (s.len.toNat % 8 = 0 ∧ s.allocOk = false ∧ guarded request body s = s.nextDraw.raise .allocationFailure) ∨
    (s.len.toNat % 8 = 0 ∧ s.allocOk = true ∧ ∃ m,
      guarded request body s =
        { s.nextDraw with status := statusOk, outLen := s.len, outBuf := m, scan := s.groupCount } ∧
      (∀ off, m.read? off =
        if off < 8 * s.groupCount then (f (s.readGroup (off / 8))).bytes[off % 8]? else s.outBuf.read? off) ∧
      (s.outBuf.wf = true → m.wf = true)) := by
  rcases guarded_cases request body s with h | h | ⟨h8, ha, he⟩
  · exact .inl h
  · exact .inr (.inl h)
  · obtain ⟨m, hm, hread, hwf⟩ := scanInput_transformStep f s.nextDraw
    refine .inr (.inr ⟨h8, ha, m, ?_, hread, hwf⟩)
    rw [he, hbody, hm]
    rfl

/-- Everything DECODE_FRAME can do. -/
theorem execDecodeFrame_cases (s : State) :
    (s.len.toNat % 8 ≠ 0 ∧ exec .decodeFrame s = .next (s.raise .invalidLength)) ∨
    (s.len.toNat % 8 = 0 ∧ s.allocOk = false ∧ exec .decodeFrame s = .next (s.nextDraw.raise .allocationFailure)) ∨
    (s.len.toNat % 8 = 0 ∧ s.allocOk = true ∧ ∃ m,
      exec .decodeFrame s =
        .next { s.nextDraw with status := statusOk, outLen := s.len, outBuf := m, scan := s.groupCount } ∧
      (∀ off, m.read? off =
        if off < 8 * s.groupCount then (decodeGroup s.decYTop s.narrow8 (s.readGroup (off / 8))).bytes[off % 8]?
        else s.outBuf.read? off) ∧
      (s.outBuf.wf = true → m.wf = true)) := by
  rcases colourOperation_cases (decodeGroup s.decYTop s.narrow8) s.len.toNat decodeBody s rfl with
    ⟨h8, he⟩ | ⟨h8, ha, he⟩ | ⟨h8, ha, m, he, h⟩
  · exact .inl ⟨h8, congrArg Host.Outcome.next he⟩
  · exact .inr (.inl ⟨h8, ha, congrArg Host.Outcome.next he⟩)
  · exact .inr (.inr ⟨h8, ha, m, congrArg Host.Outcome.next he, h⟩)

/-- Everything ENCODE_FRAME can do. -/
theorem execEncodeFrame_cases (pm : Bool) (s : State) :
    (s.len.toNat % 8 ≠ 0 ∧ exec (.encodeFrame pm) s = .next (s.raise .invalidLength)) ∨
    (s.len.toNat % 8 = 0 ∧ s.allocOk = false ∧ exec (.encodeFrame pm) s = .next (s.nextDraw.raise .allocationFailure)) ∨
    (s.len.toNat % 8 = 0 ∧ s.allocOk = true ∧ ∃ m,
      exec (.encodeFrame pm) s =
        .next { s.nextDraw with status := statusOk, outLen := s.len, outBuf := m, scan := s.groupCount } ∧
      (∀ off, m.read? off =
        if off < 8 * s.groupCount then (encodeGroup pm (s.readGroup (off / 8))).bytes[off % 8]?
        else s.outBuf.read? off) ∧
      (s.outBuf.wf = true → m.wf = true)) := by
  rcases colourOperation_cases (encodeGroup pm) s.len.toNat (encodeBody pm) s rfl with
    ⟨h8, he⟩ | ⟨h8, ha, he⟩ | ⟨h8, ha, m, he, h⟩
  · exact .inl ⟨h8, congrArg Host.Outcome.next he⟩
  · exact .inr (.inl ⟨h8, ha, congrArg Host.Outcome.next he⟩)
  · exact .inr (.inr ⟨h8, ha, m, congrArg Host.Outcome.next he, h⟩)

/-- Everything COMPRESS_RLE can do. -/
theorem execCompressRle_cases (s : State) :
    (s.len.toNat % 8 ≠ 0 ∧ exec .compressRle s = .next (s.raise .invalidLength)) ∨
    (s.len.toNat % 8 = 0 ∧ s.allocOk = false ∧ exec .compressRle s = .next (s.nextDraw.raise .allocationFailure)) ∨
    (s.len.toNat % 8 = 0 ∧ s.allocOk = true ∧ s.hasSentinel = true ∧
      exec .compressRle s = .next (s.nextDraw.raise .formatViolation)) ∨
    (s.len.toNat % 8 = 0 ∧ s.allocOk = true ∧ s.hasSentinel = false ∧ ∃ prev count wptr,
      exec .compressRle s = .next { s.nextDraw with
        status := statusOk, outLen := wptr
        outBuf := s.outBuf.writeBytes 0 (blocksBytes (rleClosedForm s.inBlocks))
        prev := prev, count := count, wptr := wptr, scan := s.groupCount } ∧
      wptr.toNat = 8 * (rleClosedForm s.inBlocks).length ∧ wptr.toNat ≤ s.len.toNat) := by
  rcases guarded_cases (rleProvision * s.len.toNat) compressBody s with ⟨h8, he⟩ | ⟨h8, ha, he⟩ | ⟨h8, ha, he⟩
  · exact .inl ⟨h8, congrArg Host.Outcome.next he⟩
  · exact .inr (.inl ⟨h8, ha, congrArg Host.Outcome.next he⟩)
  · rcases compressBody_cases s.nextDraw with ⟨hs, hb⟩ | ⟨hs, p, c, w, hb, hw⟩
    · exact .inr (.inr (.inl ⟨h8, ha, hs, congrArg Host.Outcome.next (he.trans hb)⟩))
    · exact .inr (.inr (.inr ⟨h8, ha, hs, p, c, w, congrArg Host.Outcome.next (he.trans hb), hw⟩))

end Sys2Proof.Machine
end

