-- ==== Sys2Proof/Laws/PerInstr.lean ====
section
/-!
SUPPORT. Facts stated once for each constructor of Instr.
-/

namespace Sys2Proof

/-- The encoding of a row has the row's length (30_encoding.md R80). -/
def Laws.EncodeLength.Statement (i : Instr) : Prop := (encode i).length = i.byteLength

theorem Laws.EncodeLength.decodeFrame : Laws.EncodeLength.Statement .decodeFrame := rfl

theorem Laws.EncodeLength.encodeFrame (pm : Bool) : Laws.EncodeLength.Statement (.encodeFrame pm) := rfl

theorem Laws.EncodeLength.compressRle : Laws.EncodeLength.Statement .compressRle := rfl

theorem Laws.EncodeLength.reservedCmd (c : Byte) : Laws.EncodeLength.Statement (.reservedCmd c) := rfl

theorem Laws.EncodeLength.runRecord (count : Word64) (payload : Block) :
    Laws.EncodeLength.Statement (.runRecord count payload) := by
  simp [Laws.EncodeLength.Statement, encode, Instr.byteLength]

theorem Laws.EncodeLength.literalBlock (b : Block) : Laws.EncodeLength.Statement (.literalBlock b) :=
  blockBytes_length b

theorem Laws.EncodeLength.fmtPixelpairYcbcra (px : YCbCrA) :
    Laws.EncodeLength.Statement (.fmtPixelpairYcbcra px) := rfl

theorem Laws.EncodeLength.fmtPixelpairRgba8888 (px : RGBA) :
    Laws.EncodeLength.Statement (.fmtPixelpairRgba8888 px) := rfl

end Sys2Proof
end

