-- ==== Sys2Proof/Laws/Stream.lean ====
section
/-!
SUPPORT. The reader's functions, one lemma for each kind of record (30_encoding.md R98, R99).
-/

namespace Sys2Proof.Machine

@[simp] theorem expand_nil : expand [] = some [] := rfl

theorem expand_literal {b : Block} (h : b ≠ sentinel) (rest : List Block) :
    expand (b :: rest) = (expand rest).map (b :: ·) := by
  rw [expand.eq_def]
  exact if_neg h

theorem expand_run (count payload : Block) (rest : List Block) :
    expand (sentinel :: count :: payload :: rest) = (expand rest).map (List.replicate count.toNat payload ++ ·) := by
  rw [expand.eq_def]
  exact if_pos rfl

@[simp] theorem parseStream_nil : parseStream [] = some [] := rfl

theorem parseStream_literal {b : Block} (h : b ≠ sentinel) (rest : List Block) :
    parseStream (b :: rest) = (parseStream rest).map (.literalBlock b :: ·) := by
  rw [parseStream.eq_def]
  exact if_neg h

theorem parseStream_run (count payload : Block) (rest : List Block) :
    parseStream (sentinel :: count :: payload :: rest) = (parseStream rest).map (.runRecord count payload :: ·) := by
  rw [parseStream.eq_def]
  exact if_pos rfl

end Sys2Proof.Machine
end

