-- ==== Sys2Proof/Tests/Slice0.lean ====
section
/-!
SUPPORT. Tests of the model's own, and a witness for every statement with hypotheses. Expected values are from
spec/95_test_vectors.md (the vector's id is named) or worked out from the layouts by hand.
-/

namespace Sys2Proof.Machine

/- One thread for this file: its theorems are many and small, and each thread's stack counts against the memory limit. -/
set_option Elab.async false

/-- A state with a command and an input buffer of the given bytes, after reset. -/
def loaded (cmd : Byte) (bs : List Byte) : State := { State.reset.loadInput bs with cmd := cmd }

/-- What the host reads after one step: STATUS, OUT_LEN and the valid bytes of OUT. -/
def hostSees (o : Host.Outcome State Fault Refusal) : Option (BitVec 2 × Word64 × List (Option Byte)) :=
  match o with
  | .next t => some (t.hostReadStatus, t.hostReadOutLen, t.outBytes)
  | _ => none

/-- A refusal's reason. -/
def refusalOf (o : Host.Outcome State Fault Refusal) : Option Refusal :=
  match o with
  | .refused r => some r
  | _ => none

/-! ## Well-formedness -/

theorem test_illFormed_reservedCmd : (Instr.reservedCmd 0x05#8).wellFormed = false := by decide

theorem test_illFormed_literalBlock : (Instr.literalBlock 0xFEFEFEFEFEFEFEFE#64).wellFormed = false := by decide

/-! ## Decoding, each word written out from its encoding -/

theorem test_decode_decodeFrame : decodeCmd 0b00000000#8 = .decodeFrame := by decide

theorem test_decode_encodeFrame : decodeCmd 0b00000001#8 = .encodeFrame false ∧ decodeCmd 0b00000101#8 = .encodeFrame true := by
  decide

theorem test_decode_compressRle : decodeCmd 0b00000010#8 = .compressRle := by decide

theorem test_decode_reservedCmd :
    [0x03#8, 0x04#8, 0x06#8, 0x07#8, 0x08#8, 0x81#8].map decodeCmd =
      [.reservedCmd 0x03#8, .reservedCmd 0x04#8, .reservedCmd 0x06#8, .reservedCmd 0x07#8, .reservedCmd 0x08#8,
        .reservedCmd 0x81#8] := by decide

/-- F1: 12 bits of alpha, 10 of chroma, 10 of luma, twice. -/
theorem test_decode_fmtPixelpairYcbcra :
    decodeAs .groupYCbCrA [0b00011111#8, 0b01000110#8, 0b01100100#8, 0b11111010#8, 0b00111010#8, 0b10011111#8, 0b00000010#8,
      0b01011000#8] = .ok (.fmtPixelpairYcbcra ⟨0b000111110100#12, 0b0110011001#10, 0b0011111010#10, 0b001110101001#12,
        0b1111000000#10, 0b1001011000#10⟩) := by decide

theorem test_decode_fmtPixelpairRgba8888 :
    decodeAs .groupRGBA [0xC8#8, 0x64#8, 0x32#8, 0x80#8, 1#8, 2#8, 3#8, 4#8] =
      .ok (.fmtPixelpairRgba8888 ⟨0xC8#8, 0x64#8, 0x32#8, 0x80#8, 1#8, 2#8, 3#8, 4#8⟩) := by decide

/-- F4. -/
theorem test_decode_runRecord :
    decodeAs .rleStream (List.replicate 8 0xFE#8 ++ [0#8, 0#8, 0#8, 0#8, 0#8, 0#8, 1#8, 0x2C#8] ++ List.replicate 8 0x7E#8) =
      .ok (.runRecord 0x12C#64 0x7E7E7E7E7E7E7E7E#64) := by decide +kernel

/-- CV11: seven bytes FE and one other. -/
theorem test_decode_literalBlock :
    decodeAs .rleStream (List.replicate 7 0xFE#8 ++ [0xFF#8]) = .ok (.literalBlock 0xFEFEFEFEFEFEFEFF#64) := by decide +kernel

theorem test_decode_errors :
    decodeAs .cmd [] = .error .commandIsOneByte ∧ decodeAs .groupRGBA [1#8] = .error .groupIsEightBytes ∧
    decodeAs .rleStream (List.replicate 8 0xFE#8) = .error .truncatedRecord ∧
    decodeAs .rleStream (List.replicate 9 1#8) = .error .trailingBytes := by decide +kernel

theorem test_decodeTableWord :
    decodeTableWord 8 5 = some (.encodeFrame true) ∧
    decodeTableWord 192 0xFEFEFEFEFEFEFEFE00000000000000030102030405060708 = some (.runRecord 3#64 0x0102030405060708#64) := by
  decide +kernel

theorem test_withFetchWord : (State.reset.withFetchWord 8 2).fetched = .compressRle := by decide

/-! ## One step of each operation -/

/-- DV12: values below -1 and an alpha quotient below 0 go through NARROW8's default. -/
theorem test_decodeFrame_wraps_low :
    hostSees (step (loaded 0x00#8 (List.replicate 8 0#8))) =
      some (0#2, 8#64, [0x07#8, 0x4D#8, 0xDE#8, 0xFC#8, 0x07#8, 0x4D#8, 0xDE#8, 0xFC#8].map some) := by decide +kernel

/-- DV17 under SECOND: pixel 0 takes the second half's top luma bits. -/
theorem test_decodeFrame_second :
    hostSees (step { loaded 0x00#8 [0x3A#8, 0x98#8, 0x03#8, 0xAC#8, 0x3A#8, 0x98#8, 0x00#8, 0x40#8] with decYTop := .second }) =
      some (0#2, 8#64, [0x1F#8, 0x1F#8, 0x1F#8, 0xFF#8, 0#8, 0#8, 0#8, 0xFF#8].map some) := by decide +kernel

/-- E21: pixel 0 gets pixel 1's chroma and loses its own top luma bits. -/
theorem test_encodeFrame_quirks :
    hostSees (step (loaded 0x01#8 [0xFF#8, 0xFF#8, 0x00#8, 0xFF#8, 0x00#8, 0xFF#8, 0xFF#8, 0xFF#8])) =
      some (0#2, 8#64, [0x3A#8, 0x99#8, 0x9E#8, 0x6D#8, 0x3A#8, 0x91#8, 0x02#8, 0xF2#8].map some) := by decide +kernel

/-- E20: premultiplied, each pixel by its own alpha. -/
theorem test_encodeFrame_premultiply :
    hostSees (step (loaded 0x05#8 [0x0A#8, 0x14#8, 0x1E#8, 0x01#8, 0xFA#8, 0xF0#8, 0xE6#8, 0xFE#8])) =
      some (0#2, 8#64, [0x04#8, 0x07#8, 0xAB#8, 0x40#8, 0x3A#8, 0x58#8, 0x4F#8, 0x7A#8].map some) := by decide +kernel

/-- CV8: a literal, then a run flushed at the end of the stream. -/
theorem test_compressRle_run_at_end :
    hostSees (step (loaded 0x02#8 (List.replicate 8 0x66#8 ++ List.replicate 32 0x55#8))) =
      some (0#2, 32#64, (List.replicate 8 0x66#8 ++ List.replicate 8 0xFE#8 ++ [0#8, 0#8, 0#8, 0#8, 0#8, 0#8, 0#8, 4#8] ++
        List.replicate 8 0x55#8).map some) := by decide +kernel

/-- X4 and X12: a sentinel in the last block leaves nothing; allocation is checked before the sentinel. -/
theorem test_compressRle_errors :
    hostSees (step (loaded 0x02#8 (List.replicate 24 0xA1#8 ++ List.replicate 8 0xFE#8))) = some (3#2, 0#64, []) ∧
    hostSees (step { loaded 0x02#8 (List.replicate 8 0xFE#8) with allocOk := false }) = some (2#2, 0#64, []) := by
  decide +kernel

theorem test_reservedCmd_refused : refusalOf (step (loaded 0x06#8 [])) = some (.reservedCommand 0x06#8) := by decide

/-! ## Witnesses: the hypotheses of each statement can be met -/

/-- One group as ENCODE_FRAME reads it, then the same again, then another: 24 bytes. -/
def sampleBytes : List Byte := List.replicate 16 0x55#8 ++ List.replicate 8 0x66#8

theorem witness_StepRunsTheCommandInCmd : decodeAs .cmd (loaded 0x02#8 sampleBytes).fetch = .ok .compressRle := by decide

theorem witness_ReservedCommandsHaveNoStep : decodeCmd (loaded 0x04#8 []).cmd = .reservedCmd (loaded 0x04#8 []).cmd := by decide

theorem witness_DecodeOfEncode :
    (Instr.runRecord 0#64 sentinel).wellFormed = true ∧ (Instr.literalBlock 0xFEFEFEFEFEFEFEFF#64).wellFormed = true ∧
    (Instr.reservedCmd 0xFF#8).wellFormed = true := by decide

theorem witness_EncodeOfDecode : decodeAs .cmd [0x05#8] = .ok (.encodeFrame true) := by decide

theorem witness_StreamReadsRecordByRecord :
    (Instr.runRecord 3#64 0#64).format = .rleStream ∧ (Instr.runRecord 3#64 0#64).wellFormed = true ∧
    readRecord [1#8, 2#8, 3#8, 4#8, 5#8, 6#8, 7#8, 8#8, 9#8] = .ok (.literalBlock 0x0102030405060708#64, [9#8]) := by
  decide +kernel

theorem witness_InvalidLengthOutcome :
    (loaded 0x00#8 [1#8]).len.toNat % 8 ≠ 0 ∧ ({ State.reset with len := 0xFFFFFFFFFFFFFFFF#64 } : State).len.toNat % 8 ≠ 0 := by
  decide

theorem witness_AllocationFailureOutcome :
    ({ loaded 0x02#8 sampleBytes with allocOk := false } : State).len.toNat % 8 = 0 ∧
    ({ loaded 0x02#8 sampleBytes with allocOk := false } : State).allocOk = false := by decide

/-- The sentinel in the last of two blocks. -/
theorem witness_FormatViolationOutcome :
    let s := loaded 0x02#8 (List.replicate 8 0xA1#8 ++ List.replicate 8 0xFE#8)
    s.len.toNat % 8 = 0 ∧ s.allocOk = true ∧ 1 < s.len.toNat / 8 ∧ s.memRead (8 * 1) 8 = 0xFEFEFEFEFEFEFEFE := by decide +kernel

theorem witness_ErrorPriority : ∃ t, exec .compressRle (loaded 0x02#8 [1#8]) = .next t ∧ t.status ≠ 0#2 :=
  ⟨_, rfl, by decide +kernel⟩

theorem witness_StatusTable : ∃ t, exec (.encodeFrame true) (loaded 0x05#8 sampleBytes) = .next t := ⟨_, rfl⟩

/-- An empty input (LEN = 0) and one of three groups. -/
theorem witness_DecodeFrameResult :
    (loaded 0x00#8 []).len.toNat % 8 = 0 ∧ (loaded 0x00#8 []).allocOk = true ∧
    (loaded 0x00#8 sampleBytes).len.toNat % 8 = 0 ∧ (loaded 0x00#8 sampleBytes).allocOk = true ∧
    2 < (loaded 0x00#8 sampleBytes).len.toNat / 8 := by decide

theorem witness_EncodeFrameResult :
    (loaded 0x05#8 []).len.toNat % 8 = 0 ∧ (loaded 0x05#8 []).allocOk = true ∧
    (loaded 0x05#8 sampleBytes).len.toNat % 8 = 0 ∧ (loaded 0x05#8 sampleBytes).allocOk = true ∧
    2 < (loaded 0x05#8 sampleBytes).len.toNat / 8 := by decide

/-- DV15: top-bit fields that differ do not meet the premise, those of DV16 do. -/
theorem witness_DecodeTopLumaBits :
    let g : Group := ⟨0x3A#8, 0x96#8, 0x64#8, 0xFA#8, 0x3A#8, 0x9F#8, 0x00#8, 0xFA#8⟩
    g.b2.extractLsb' 0 2 = g.b6.extractLsb' 0 2 := by decide

theorem witness_DecodeAlphaValues :
    13 ≤ (13#12).toNat ∧ (13#12).toNat ≤ 19 ∧ 934 ≤ (937#12).toNat ∧ (937#12).toNat ≤ 937 ∧ 13 ≤ (500#12).toNat ∧
    (500#12).toNat ≤ 937 ∧ [((-38 : Int), (7#8 : Byte))].lookup (-38) = some 7#8 ∧
    [((-38 : Int), (7#8 : Byte))].lookup (-1) = none ∧ [((-38 : Int), (7#8 : Byte))].lookup 256 = none := by decide

/-- R129's own values: -38 gives 218 and -290 gives 222 under the default; 256 gives 0. A table's value stands where listed. -/
theorem test_narrow8 :
    narrow8 [] (-38) = 218#8 ∧ narrow8 [] (-290) = 222#8 ∧ narrow8 [] 256 = 0#8 ∧ narrow8 [(-38, 7#8), (5, 9#8)] (-38) = 7#8 ∧
    narrow8 [(-38, 7#8), (5, 9#8)] 5 = 5#8 := by decide

/-- DV6: luma one code below black, neutral chroma: every channel is above -1. -/
theorem witness_DecodeWithoutNarrow8 :
    -1 < reconstructR (lumaExpand 63#10) (chromaExpand 512#10) ∧ -1 < reconstructB (lumaExpand 63#10) (chromaExpand 512#10) ∧
    -1 < reconstructG (lumaExpand 63#10) (chromaExpand 512#10) (chromaExpand 512#10) ∧ 13 ≤ (13#12).toNat ∧
    (937#12).toNat ≤ 937 := by decide +kernel

theorem witness_EncodeClampsNeverBind : lumaPreClamp (-1) < 64 ∧ 940 < lumaPreClamp 2 := by decide +kernel

theorem witness_EncodedFrameCompresses : ∃ t, exec (.encodeFrame false) (loaded 0x01#8 sampleBytes) = .next t ∧ t.status = 0#2 :=
  ⟨_, rfl, by decide +kernel⟩

theorem witness_ColourOperationsFrame :
    (∃ t, exec .decodeFrame (loaded 0x00#8 sampleBytes) = .next t ∧ t.status = 0#2) ∧
    ∃ t, exec .decodeFrame (loaded 0x00#8 [1#8]) = .next t ∧ t.status ≠ 0#2 :=
  ⟨⟨_, rfl, by decide +kernel⟩, ⟨_, rfl, by decide +kernel⟩⟩

/-- The second block joins the run of the first; the third seeds a new run; so does a first block. -/
theorem witness_RleScanStep :
    let s : State := { loaded 0x02#8 sampleBytes with prev := 0x5555555555555555#64, count := 1 }
    (0 < s.count.toNat ∧ ({ s with scan := 1 } : State).readBlock 1 = s.prev) ∧ s.readBlock 2 ≠ s.prev ∧
    (loaded 0x02#8 sampleBytes).count.toNat = 0 := by decide +kernel

/-- A pending run of the given length at the given WPTR. -/
def pendingRun (count wptr : Word64) : State := { State.reset with count := count, wptr := wptr }

/-- COUNT = 3, 2, 1, 0, each at the largest aligned WPTR that the premise admits. -/
theorem witness_RleFlush :
    ([(3#64, 0xFFFFFFFFFFFFFFE0#64), (2#64, 0xFFFFFFFFFFFFFFE8#64), (1#64, 0xFFFFFFFFFFFFFFF0#64),
        (0#64, 0xFFFFFFFFFFFFFFF8#64)].all fun r =>
      decide ((pendingRun r.1 r.2).wptr.toNat + 8 * min (pendingRun r.1 r.2).count.toNat 3 < 2 ^ 64)) = true ∧
    2 < (pendingRun 3 0).count.toNat := by decide

theorem witness_RleRegistersStayInRange : 3 ≤ (loaded 0x02#8 sampleBytes).len.toNat / 8 := by decide

theorem witness_MaximalRunsDivideTheInput :
    maximalRuns [1#64, 1#64, 2#64, 1#64] = [(1#64, 2), (2#64, 1), (1#64, 1)] := by decide

theorem test_sample_has_no_sentinel :
    ((loaded 0x02#8 sampleBytes).inBlocks.all fun b => decide (b ≠ sentinel)) = true := by decide +kernel

theorem witness_CompressClosedForm :
    (loaded 0x02#8 sampleBytes).len.toNat % 8 = 0 ∧ (loaded 0x02#8 sampleBytes).allocOk = true ∧
    ∀ b ∈ (loaded 0x02#8 sampleBytes).inBlocks, b ≠ sentinel :=
  ⟨by decide, rfl, fun b hb => of_decide_eq_true (List.all_eq_true.mp test_sample_has_no_sentinel b hb)⟩

theorem witness_CompressLossless : ∃ t, exec .compressRle (loaded 0x02#8 sampleBytes) = .next t ∧ t.status = 0#2 :=
  ⟨_, rfl, by decide +kernel⟩

/-- One run of three blocks. -/
theorem witness_CompressSize :
    (∃ t, exec .compressRle (loaded 0x02#8 (List.replicate 24 0x55#8)) = .next t ∧ t.status = 0#2) ∧
    maximalRuns (loaded 0x02#8 (List.replicate 24 0x55#8)).inBlocks = [(0x5555555555555555#64, 3)] :=
  ⟨⟨_, rfl, by decide +kernel⟩, by decide +kernel⟩

theorem witness_OneRunOneRecord :
    let s := loaded 0x02#8 (List.replicate 24 0x55#8)
    s.len.toNat % 8 = 0 ∧ s.allocOk = true ∧ (0x5555555555555555#64 : Block) ≠ sentinel ∧ 24 ≤ s.len.toNat ∧
    ∀ g, g < s.len.toNat / 8 → s.readBlock g = 0x5555555555555555#64 := by decide +kernel

theorem witness_CompressWritesCanonicalRecords :
    ∃ t, exec .compressRle (loaded 0x02#8 (List.replicate 24 0x55#8 ++ List.replicate 16 0x66#8)) = .next t ∧ t.status = 0#2 :=
  ⟨_, rfl, by decide +kernel⟩

/-- An output with a run-record, and one without. -/
theorem witness_CompressingAnOutputAgain :
    (∃ t, exec .compressRle (loaded 0x02#8 (List.replicate 24 0x55#8)) = .next t ∧ t.status = 0#2 ∧
      t.outBytes = (blocksBytes [sentinel, 3#64, 0x5555555555555555#64]).map some ∧
      parseStream [sentinel, 3#64, 0x5555555555555555#64] = some [.runRecord 3#64 0x5555555555555555#64]) ∧
    ∃ t, exec .compressRle (loaded 0x02#8 (List.replicate 8 0x55#8)) = .next t ∧ t.status = 0#2 ∧
      t.outBytes = (blocksBytes [0x5555555555555555#64]).map some ∧
      parseStream [0x5555555555555555#64] = some [.literalBlock 0x5555555555555555#64] :=
  ⟨⟨_, rfl, by decide +kernel⟩, ⟨_, rfl, by decide +kernel⟩⟩

/-- The largest alpha field the premise admits. -/
theorem witness_PeerDataIsNoSentinel :
    (unpackYCbCrA ((loaded 0x02#8 (0xFD#8 :: List.replicate 7 0xFF#8)).readGroup 0)).a0.toNat = 0xFDF := by decide +kernel

theorem witness_CompressFrame : ∃ t, exec .compressRle (loaded 0x02#8 (List.replicate 8 0xFE#8)) = .next t ∧ t.status ≠ 0#2 :=
  ⟨_, rfl, by decide +kernel⟩

theorem witness_ResetResult :
    SameInput ((State.reset.loadInput sampleBytes).hostMove (.drawAlloc true))
      { (State.reset.loadInput sampleBytes).hostMove (.drawAlloc true) with outLen := 8#64, count := 7#64, scan := 3 } ∧
    ∃ t, exec .decodeFrame ((State.reset.loadInput sampleBytes).hostMove (.drawAlloc true)) = .next t :=
  ⟨⟨rfl, fun _ _ => rfl, rfl, rfl, rfl⟩, _, rfl⟩

theorem witness_StepKeepsInvariant : ∃ t, State.reset.Inv ∧ step State.reset = .next t :=
  ⟨_, ⟨rfl, rfl, rfl, fun h => absurd rfl h, fun _ h => absurd h (Nat.not_lt_zero _)⟩, rfl⟩

theorem witness_ReachableStatesAreWellFormed :
    Reachable ((({ State.reset with decYTop := .first, narrow8 := [(-1, 0#8)] } : State).hostMove (.writeLen 8#64)).hostMove
      (.writeIn 0#64 0xFE#8)) := .host _ (.host _ (.reset _ _))

/-- Two states that differ in every field an operation must not read. -/
theorem witness_ResultDependsOnInputOnly :
    SameInput (loaded 0x02#8 sampleBytes)
      { loaded 0x02#8 sampleBytes with
        cmd := 0xFF#8, width := 7, height := 9, status := 3#2, outLen := 8#64, outBuf := [(0, 1#8)], prev := 5#64
        count := 7#64, wptr := 9#64, scan := 11 } := ⟨rfl, fun _ _ => rfl, rfl, rfl, rfl⟩

/-- A success and an error. -/
theorem witness_AllOrNothing :
    (∃ t, exec .compressRle (loaded 0x02#8 sampleBytes) = .next t ∧ t.status = 0#2) ∧
    ∃ t, exec .compressRle (loaded 0x02#8 [1#8]) = .next t ∧ t.status ≠ 0#2 :=
  ⟨⟨_, rfl, by decide +kernel⟩, ⟨_, rfl, by decide +kernel⟩⟩

theorem witness_OutputLengthLaws : ∃ t, exec (.encodeFrame true) (loaded 0x05#8 sampleBytes) = .next t ∧ t.status = 0#2 :=
  ⟨_, rfl, by decide +kernel⟩

theorem witness_LoadedInputReadsBack : sampleBytes.length < 2 ^ 64 ∧ 23 < sampleBytes.length := by decide

/-- A valid byte of OUT and an offset beyond OUT_LEN; an offset of IN other than the one written. -/
theorem witness_HostMovesChangeOnlyTheirTarget :
    ({ State.reset with outLen := 8#64, outBuf := [(0, 5#8)] } : State).hostReadOut 0 = some 5#8 ∧
    State.reset.hostReadOut 0 = none ∧ (1 : Nat) ≠ (0#64).toNat := by decide

/-- Pure blue and pure red with alpha 255, for the clauses on 1/2. -/
theorem witness_ChromaFromSecondPixelOnly :
    let p : RGBA := ⟨1#8, 2#8, 3#8, 4#8, 0#8, 0#8, 255#8, 255#8⟩
    (p.r1 = 0#8 ∧ p.g1 = 0#8 ∧ p.b1 = 255#8 ∧ p.a1 = 255#8) ∧ groupCb true p = 1 / 2 ∧
      groupCr true { p with r1 := 255#8, b1 := 0#8 } = 1 / 2 := by decide +kernel

theorem witness_WidthAndHeightIgnored : ∃ t, exec .decodeFrame (loaded 0x00#8 sampleBytes) = .next t := ⟨_, rfl⟩

theorem witness_RepeatGivesSameResult : ∃ t, exec .compressRle (loaded 0x02#8 sampleBytes) = .next t := ⟨_, rfl⟩

theorem witness_HostSideUnchanged : ∃ t, step (loaded 0x01#8 sampleBytes) = .next t := ⟨_, rfl⟩

theorem witness_EveryOperationEnds : (loaded 0x02#8 []).cmd = 0x02#8 := rfl

end Sys2Proof.Machine
end

section
/-!
What an operation may read (10_state.md R21): two states with the same LEN, the same bytes of IN below LEN, the same draw
and the same configuration give the host the same result. The draw left for the next operation may differ (log entry 4),
so the facts about an operation's own work ask only for the same LEN and the same bytes of IN.
-/

namespace Sys2Proof.Machine

/-! ### What equal bytes of IN below LEN determine -/

section SameBytes

variable {s s' : State}

/-- The offsets of a group that the scan visits are below LEN. -/
theorem State.groupOffset_lt_len {g k : Nat} (hg : g < s.groupCount) (hk : k < 8) : 8 * g + k < s.len.toNat := by
  have := s.groupCount_le_len
  omega

theorem State.groupCount_congr (hlen : s.len = s'.len) : s.groupCount = s'.groupCount := by
  rw [State.groupCount, State.groupCount, hlen]

theorem State.readGroup_congr_of_lt {g : Nat} (hin : ∀ off, off < s.len.toNat → s.readIn off = s'.readIn off)
    (hg : g < s.groupCount) : s.readGroup g = s'.readGroup g :=
  State.readGroup_congr fun _ hk => hin _ (State.groupOffset_lt_len hg hk)

theorem State.inBlocks_congr (hlen : s.len = s'.len)
    (hin : ∀ off, off < s.len.toNat → s.readIn off = s'.readIn off) : s.inBlocks = s'.inBlocks := by
  rw [State.inBlocks, State.inBlocks, ← State.groupCount_congr hlen]
  exact List.map_congr_left fun g hg =>
    State.readBlock_congr fun _ hk => hin _ (State.groupOffset_lt_len (List.mem_range.1 hg) hk)

/-- The sentinel check looks at the input's blocks and at nothing else (42_rle_compress.md R183). -/
theorem State.hasSentinel_eq_any_inBlocks (s : State) : s.hasSentinel = s.inBlocks.any (· == sentinel) := by
  rw [State.inBlocks, List.any_map]
  rfl

/-! ### What the host reads after an operation -/

/-- When OUT holds a list of bytes from offset 0 and OUT_LEN is its length, the host reads the list at every offset. -/
theorem State.hostReadOut_of_writeBytes {bs : List Byte} {m : Memory} (hm : s.outBuf = m.writeBytes 0 bs)
    (hl : s.outLen.toNat = bs.length) (off : Nat) : s.hostReadOut off = bs[off]? := by
  rcases Nat.lt_or_ge off bs.length with h | h
  · rw [State.hostReadOut_of_lt (by omega), hm, Memory.read?_writeBytes, if_pos (by omega), Nat.sub_zero]
  · rw [State.hostReadOut_of_ge (by omega), List.getElem?_eq_none h]

/-- After an error nothing but its code is left to read (60_exceptions.md R216). -/
theorem sameResult_raise (s s' : State) (e : OpError) : SameResult (s.raise e) (s'.raise e) :=
  ⟨rfl, rfl, fun off =>
    (State.hostReadOut_of_ge (Nat.zero_le off)).trans (State.hostReadOut_of_ge (Nat.zero_le off)).symm⟩

/-- The guard reads LEN and the draw; the rest is up to the operation's own work. -/
theorem guarded_sameResult {request request' : Nat} {body : State → State} (hlen : s.len = s'.len)
    (halloc : s.allocOk = s'.allocOk)
    (hbody : s.len.toNat % 8 = 0 → SameResult (body s.nextDraw) (body s'.nextDraw)) :
    SameResult (guarded request body s) (guarded request' body s') := by
  rcases guarded_cases request body s with ⟨h8, he⟩ | ⟨h8, ha, he⟩ | ⟨h8, ha, he⟩
  · rw [he, guarded_invalidLength (hlen ▸ h8)]
    exact sameResult_raise s s' _
  · rw [he, guarded_allocationFailure (hlen ▸ h8) (halloc ▸ ha)]
    exact sameResult_raise s.nextDraw s'.nextDraw _
  · rw [he, guarded_runs (hlen ▸ h8) (halloc ▸ ha)]
    exact hbody h8

/-- A colour scan of a whole number of groups overwrites every byte that the host reads afterwards. -/
theorem colourScan_sameResult (f : Group → Group) (hlen : s.len = s'.len)
    (hin : ∀ off, off < s.len.toNat → s.readIn off = s'.readIn off) (h8 : s.len.toNat % 8 = 0) :
    SameResult ((scanInput (transformStep f) s).complete s.len) ((scanInput (transformStep f) s').complete s'.len) := by
  obtain ⟨m, hm, hread, -⟩ := scanInput_transformStep f s
  obtain ⟨m', hm', hread', -⟩ := scanInput_transformStep f s'
  refine ⟨rfl, hlen, fun off => ?_⟩
  have hall : 8 * s.groupCount = s.len.toNat := by
    simp only [State.groupCount, groupBytes]
    omega
  rcases Nat.lt_or_ge off s.len.toNat with h | h
  · rw [State.hostReadOut_of_lt h, State.hostReadOut_of_lt (hlen ▸ h), hm, hm']
    change m.read? off = m'.read? off
    rw [hread, hread', ← State.groupCount_congr hlen, if_pos (by omega), if_pos (by omega),
      State.readGroup_congr_of_lt hin (by omega)]
  · rw [State.hostReadOut_of_ge h, State.hostReadOut_of_ge (hlen ▸ h)]

/-- COMPRESS_RLE's work is the sentinel check and the closed form, both of the input's blocks alone; what PREV, COUNT,
WPTR and OUT held before is not seen. -/
theorem compressBody_sameResult (hblocks : s.inBlocks = s'.inBlocks) :
    SameResult (compressBody s) (compressBody s') := by
  have hsent : s.hasSentinel = s'.hasSentinel := by
    rw [State.hasSentinel_eq_any_inBlocks, State.hasSentinel_eq_any_inBlocks, hblocks]
  rcases compressBody_cases s with ⟨hs, he⟩ | ⟨hs, p, c, w, he, hw, -⟩ <;>
    rcases compressBody_cases s' with ⟨hs', he'⟩ | ⟨hs', p', c', w', he', hw', -⟩
  · rw [he, he']
    exact sameResult_raise s s' _
  · cases hs.symm.trans (hsent.trans hs')
  · cases hs.symm.trans (hsent.trans hs')
  · have hread := State.hostReadOut_of_writeBytes (s := compressBody s) (congrArg State.outBuf he)
      (by rw [blocksBytes_length, ← hw, he])
    have hread' := State.hostReadOut_of_writeBytes (s := compressBody s') (congrArg State.outBuf he')
      (by rw [blocksBytes_length, ← hw', he'])
    obtain rfl : w = w' := BitVec.eq_of_toNat_eq (by rw [hw, hw', hblocks])
    refine ⟨?_, ?_, fun off => by rw [hread, hread', hblocks]⟩
    · exact (congrArg State.status he).trans (congrArg State.status he').symm
    · exact (congrArg State.outLen he).trans (congrArg State.outLen he').symm

end SameBytes

/-! ### The three operations -/

section SameInput

variable {s s' : State}

theorem decodeFrame_sameResult (h : SameInput s s') :
    ∃ t t', exec .decodeFrame s = .next t ∧ exec .decodeFrame s' = .next t' ∧ SameResult t t' := by
  obtain ⟨hlen, hin, halloc, htop, hnarrow⟩ := h
  refine ⟨_, _, rfl, rfl, guarded_sameResult hlen halloc fun h8 => ?_⟩
  simp only [decodeBody, State.nextDraw_decYTop, State.nextDraw_narrow8, ← htop, ← hnarrow]
  exact colourScan_sameResult (s := s.nextDraw) (s' := s'.nextDraw) _ hlen hin h8

theorem encodeFrame_sameResult (pm : Bool) (h : SameInput s s') :
    ∃ t t', exec (.encodeFrame pm) s = .next t ∧ exec (.encodeFrame pm) s' = .next t' ∧ SameResult t t' := by
  obtain ⟨hlen, hin, halloc, -, -⟩ := h
  exact ⟨_, _, rfl, rfl, guarded_sameResult hlen halloc fun h8 =>
    colourScan_sameResult (s := s.nextDraw) (s' := s'.nextDraw) (encodeGroup pm) hlen hin h8⟩

theorem compressRle_sameResult (h : SameInput s s') :
    ∃ t t', exec .compressRle s = .next t ∧ exec .compressRle s' = .next t' ∧ SameResult t t' := by
  obtain ⟨hlen, hin, halloc, -, -⟩ := h
  exact ⟨_, _, rfl, rfl, guarded_sameResult hlen halloc fun _ =>
    compressBody_sameResult (State.inBlocks_congr (s := s.nextDraw) (s' := s'.nextDraw) hlen hin)⟩

end SameInput

/-! ### The obligations -/

/-- Settles O52: the three operations one by one; the other rows have no step. -/
theorem resultDependsOnInputOnly : Obligations.ResultDependsOnInputOnly := by
  intro i s s' t h he
  suffices hops : ∃ u u', exec i s = .next u ∧ exec i s' = .next u' ∧ SameResult u u' by
    obtain ⟨u, u', hu, hu', hres⟩ := hops
    obtain rfl : u = t := Host.Outcome.next.inj (hu.symm.trans he)
    exact ⟨u', hu', hres⟩
  cases i with
  | decodeFrame => exact decodeFrame_sameResult h
  | encodeFrame pm => exact encodeFrame_sameResult pm h
  | compressRle => exact compressRle_sameResult h
  | reservedCmd _ | runRecord _ _ | literalBlock _ | fmtPixelpairYcbcra _ | fmtPixelpairRgba8888 _ => cases he

/-- Settles O48: the reset values are the definition's, and the rest is O52 at a state loaded after reset. -/
theorem resetResult : Obligations.ResetResult :=
  ⟨rfl, rfl, fun off => State.hostReadOut_of_ge (Nat.zero_le off),
    fun i _ _ s t h he => resultDependsOnInputOnly i _ s t h he⟩

end Sys2Proof.Machine
end

section
/-!
The byte orders of the two memories (20_memory.md R55, R58), and what an operation leaves in OUT: its whole output or
nothing (R61), and how long that output is (R63).
-/

namespace Sys2Proof

/-! ### Single bytes of the big-endian order -/

/-- The byte at offset k of an n-byte big-endian number has the weight 256^(n - 1 - k). -/
theorem beBytes_getElem? {n k : Nat} (hk : k < n) (v : Nat) :
    (beBytes n v)[k]? = some (BitVec.ofNat 8 (v / 256 ^ (n - 1 - k))) := by
  induction n generalizing v with
  | zero => omega
  | succ n ih =>
    rw [beBytes]
    rcases Nat.lt_or_eq_of_le (Nat.le_of_lt_succ hk) with hlt | rfl
    · rw [List.getElem?_append_left (by rwa [beBytes_length]), ih hlt, Nat.div_div_eq_div_mul, ← pow_succ',
        show n - 1 - k + 1 = n + 1 - 1 - k by omega]
    · simp

/-- The byte at offset k of a block is its bits 63 - 8k down to 56 - 8k. -/
theorem blockBytes_getElem? (b : Block) {k : Nat} (hk : k < 8) :
    (blockBytes b)[k]? = some (b.extractLsb' (8 * (7 - k)) 8) := by
  rw [blockBytes, beBytes_getElem? hk, BitVec.extractLsb', Nat.shiftRight_eq_div_pow, pow_mul]
  norm_num

/-- A block is the big-endian number of its bytes. -/
theorem beNat_blockBytes (b : Block) : beNat (blockBytes b) = b.toNat := by
  rw [blockBytes, beNat_beBytes]
  exact Nat.mod_eq_of_lt b.isLt

end Sys2Proof

namespace Sys2Proof.Machine

/-! ### STATUS tells an error from a success -/

theorem State.raise_status_ne_ok (s : State) (e : OpError) : (s.raise e).status ≠ statusOk := by
  rw [State.raise_status]
  cases e <;> decide

/-- A success of a guarded operation is a success of its own work: each error of the guard leaves its code in STATUS. -/
theorem guarded_eq_body_of_ok {request : Nat} {body : State → State} {s : State}
    (hok : (guarded request body s).status = statusOk) : guarded request body s = body s.nextDraw := by
  rcases guarded_cases request body s with ⟨-, he⟩ | ⟨-, -, he⟩ | ⟨-, -, he⟩
  · rw [he] at hok
    exact absurd hok (State.raise_status_ne_ok _ _)
  · rw [he] at hok
    exact absurd hok (State.raise_status_ne_ok _ _)
  · exact he

/-! ### All or nothing -/

/-- What 20_memory.md R61 allows an operation that starts in s to leave as t: a success whose valid bytes are all there to
read, or an error with no valid byte and OUT as it was. -/
def WholeOrNothing (s t : State) : Prop :=
  (t.status = statusOk ∧ ∀ off, off < t.outLen.toNat → ∃ b, t.hostReadOut off = some b) ∨
  (t.status ≠ statusOk ∧ t.outLen = 0#64 ∧ t.outBuf = s.outBuf)

theorem wholeOrNothing_raise (s : State) (e : OpError) : WholeOrNothing s (s.raise e) :=
  .inr ⟨s.raise_status_ne_ok e, rfl, rfl⟩

/-- The guard writes no byte of OUT; the rest is up to the operation's own work. -/
theorem guarded_wholeOrNothing {request : Nat} {body : State → State} {s : State}
    (hbody : s.len.toNat % 8 = 0 → WholeOrNothing s.nextDraw (body s.nextDraw)) :
    WholeOrNothing s (guarded request body s) := by
  rcases guarded_cases request body s with ⟨-, he⟩ | ⟨-, -, he⟩ | ⟨h8, -, he⟩
  · rw [he]
    exact wholeOrNothing_raise s _
  · rw [he]
    exact wholeOrNothing_raise s.nextDraw _
  · rw [he]
    exact hbody h8

/-- Of a whole number of groups the scan leaves out no byte. -/
theorem State.eight_mul_groupCount {s : State} (h8 : s.len.toNat % 8 = 0) : 8 * s.groupCount = s.len.toNat :=
  Nat.mul_div_cancel' (Nat.dvd_of_mod_eq_zero h8)

/-- A colour scan of a whole number of groups writes every byte below LEN. -/
theorem colourScan_wholeOrNothing (f : Group → Group) {s : State} (h8 : s.len.toNat % 8 = 0) :
    WholeOrNothing s ((scanInput (transformStep f) s).complete s.len) := by
  obtain ⟨m, hm, hread, -⟩ := scanInput_transformStep f s
  refine .inl ⟨rfl, fun off (hoff : off < s.len.toNat) => ?_⟩
  have hall := State.eight_mul_groupCount h8
  have hbyte : off % 8 < (f (s.readGroup (off / 8))).bytes.length := Nat.mod_lt _ (by decide)
  exact ⟨(f (s.readGroup (off / 8))).bytes[off % 8], by
    rw [State.hostReadOut_of_lt hoff, State.complete_outBuf, hm, hread, if_pos (by omega), List.getElem?_eq_getElem hbyte]⟩

/-- COMPRESS_RLE's work raises before it writes, or OUT_LEN is the number of bytes it wrote from offset 0. -/
theorem compressBody_wholeOrNothing (s : State) : WholeOrNothing s (compressBody s) := by
  rcases compressBody_cases s with ⟨-, he⟩ | ⟨-, p, c, w, he, hw, -⟩
  · rw [he]
    exact wholeOrNothing_raise s _
  · have hlen : (compressBody s).outLen.toNat = (blocksBytes (rleClosedForm s.inBlocks)).length := by
      rw [blocksBytes_length, ← hw, he]
    refine .inl ⟨by rw [he], fun off hoff => ?_⟩
    rw [hlen] at hoff
    exact ⟨_, (State.hostReadOut_of_writeBytes (congrArg State.outBuf he) hlen off).trans (List.getElem?_eq_getElem hoff)⟩

/-! ### The length of the output -/

/-- A successful colour operation has OUT_LEN = LEN. -/
theorem colourOperation_outLen {f : Group → Group} {request : Nat} {body : State → State} {s : State}
    (hbody : body s.nextDraw = (scanInput (transformStep f) s.nextDraw).complete s.len)
    (hok : (guarded request body s).status = statusOk) : (guarded request body s).outLen = s.len := by
  rw [guarded_eq_body_of_ok hok, hbody, State.complete_outLen]

/-! ### The obligations -/

/-- Settles O10: by the group's construction from eight bytes and its listing, both in offset order. -/
theorem rgbaByteOrder : Obligations.RGBAByteOrder :=
  fun _ _ _ _ _ _ _ _ => ⟨rfl, rfl⟩

/-- Settles O11: the first and the last byte are two cases of the weight of a big-endian byte. -/
theorem runCountIsBigEndian : Obligations.RunCountIsBigEndian :=
  ⟨fun count => ⟨beNat_blockBytes count, blockBytes_length count, blockBytes_getElem? count (by decide),
    blockBytes_getElem? count (by decide)⟩, by decide, by decide⟩

/-- Settles O53: the three operations one by one; the other rows have no step. -/
theorem allOrNothing : Obligations.AllOrNothing := by
  intro i s t he
  change WholeOrNothing s t
  cases i with
  | decodeFrame =>
    obtain rfl := Host.Outcome.next.inj he
    exact guarded_wholeOrNothing fun h8 => colourScan_wholeOrNothing (s := s.nextDraw) _ h8
  | encodeFrame pm =>
    obtain rfl := Host.Outcome.next.inj he
    exact guarded_wholeOrNothing fun h8 => colourScan_wholeOrNothing (s := s.nextDraw) (encodeGroup pm) h8
  | compressRle =>
    obtain rfl := Host.Outcome.next.inj he
    exact guarded_wholeOrNothing fun _ => compressBody_wholeOrNothing s.nextDraw
  | reservedCmd _ | runRecord _ _ | literalBlock _ | fmtPixelpairYcbcra _ | fmtPixelpairRgba8888 _ => cases he

/-- Settles O54: the colour operations end with OUT_LEN = LEN; COMPRESS_RLE ends with no byte, or with the whole blocks of
the closed form, which fit in LEN. -/
theorem outputLengthLaws : Obligations.OutputLengthLaws := by
  refine ⟨?_, fun s t he => ?_⟩
  · rintro i s t (rfl | rfl | rfl) he hok
    · obtain rfl := Host.Outcome.next.inj he
      exact colourOperation_outLen rfl hok
    · obtain rfl := Host.Outcome.next.inj he
      exact colourOperation_outLen (f := encodeGroup false) rfl hok
    · obtain rfl := Host.Outcome.next.inj he
      exact colourOperation_outLen (f := encodeGroup true) rfl hok
  · have herr (u : State) (e : OpError) : (u.raise e).outLen.toNat % 8 = 0 ∧ (u.raise e).outLen.toNat ≤ s.len.toNat :=
      ⟨rfl, Nat.zero_le _⟩
    rcases execCompressRle_cases s with ⟨-, h⟩ | ⟨-, -, h⟩ | ⟨-, -, -, h⟩ | ⟨-, -, -, p, c, w, h, hw, hle⟩ <;>
      obtain rfl := Host.Outcome.next.inj (h.symm.trans he)
    · exact herr _ _
    · exact herr _ _
    · exact herr _ _
    · exact ⟨hw ▸ Nat.mul_mod_right 8 _, hle⟩

end Sys2Proof.Machine
end

section
/-!
The bits of the encodings (30_encoding.md): the fields of a YCbCrA group as numbers and as parts of a word (R86 to R88),
the records of a stream one by one (R98), and which command bytes are reserved (R84).
-/

namespace Sys2Proof

/-! ### Fields as numbers -/

theorem toNat_extractLsb'_top {w lo len : Nat} (x : BitVec w) (h : lo + len = w) :
    (x.extractLsb' lo len).toNat = x.toNat / 2 ^ lo := by
  have hx : x.toNat < 2 ^ lo * 2 ^ len := by rw [← pow_add, h]; exact x.isLt
  rw [BitVec.extractLsb'_toNat, Nat.shiftRight_eq_div_pow, Nat.mod_eq_of_lt (Nat.div_lt_of_lt_mul hx)]

theorem toNat_extractLsb'_bottom {w : Nat} (x : BitVec w) (len : Nat) :
    (x.extractLsb' 0 len).toNat = x.toNat % 2 ^ len := by
  rw [BitVec.extractLsb'_toNat, Nat.shiftRight_zero]

/-- Fields that straddle a byte boundary: the bottom of one word above the top of the next. -/
theorem toNat_bottom_append_top {v w lo n : Nat} (x : BitVec v) (m : Nat) (y : BitVec w) (h : lo + n = w) :
    (x.extractLsb' 0 m ++ y.extractLsb' lo n).toNat = ((x.toNat % 2 ^ m) <<< n) ||| (y.toNat / 2 ^ lo) := by
  rw [BitVec.toNat_append, toNat_extractLsb'_bottom, toNat_extractLsb'_top y h]

theorem toNat_append_eq_add {v w : Nat} (x : BitVec v) (y : BitVec w) :
    (x ++ y).toNat = x.toNat * 2 ^ w + y.toNat := by
  rw [BitVec.toNat_append, ← Nat.shiftLeft_add_eq_or_of_lt y.isLt, Nat.shiftLeft_eq]

/-- Four bytes as one big-endian word: 12 bits of alpha, 10 of chroma, 10 of luma (30_encoding.md R86). -/
theorem beNat_eq_layoutWord (b0 b1 b2 b3 : Byte) :
    beNat [b0, b1, b2, b3] = (b0 ++ b1.extractLsb' 4 4).toNat * 2 ^ 20 +
      (b1.extractLsb' 0 4 ++ b2.extractLsb' 2 6).toNat * 2 ^ 10 + (b2.extractLsb' 0 2 ++ b3).toNat := by
  simp only [toNat_append_eq_add, toNat_extractLsb'_bottom, toNat_extractLsb'_top b1 (lo := 4) (len := 4) rfl,
    toNat_extractLsb'_top b2 (lo := 2) (len := 6) rfl, beNat, List.foldl]
  omega

/-! ### Insertion and extraction are inverse -/

theorem unpackYCbCrA_packYCbCrA (f : YCbCrA) : unpackYCbCrA (packYCbCrA f) = f := by
  obtain ⟨a0, cb, y0, a1, cr, y1⟩ := f
  simp only [unpackYCbCrA, packYCbCrA, BitVec.extractLsb'_append_eq_left, BitVec.extractLsb'_append_eq_right,
    YCbCrA.mk.injEq]
  exact ⟨BitVec.extractLsb'_append_extractLsb', BitVec.extractLsb'_append_extractLsb',
    BitVec.extractLsb'_append_extractLsb', BitVec.extractLsb'_append_extractLsb',
    BitVec.extractLsb'_append_extractLsb', BitVec.extractLsb'_append_extractLsb'⟩

theorem packYCbCrA_unpackYCbCrA (g : Group) : packYCbCrA (unpackYCbCrA g) = g := by
  obtain ⟨b0, b1, b2, b3, b4, b5, b6, b7⟩ := g
  simp only [unpackYCbCrA, packYCbCrA, BitVec.extractLsb'_append_eq_left, BitVec.extractLsb'_append_eq_right,
    Group.mk.injEq, true_and, and_true]
  exact ⟨BitVec.extractLsb'_append_extractLsb', BitVec.extractLsb'_append_extractLsb',
    BitVec.extractLsb'_append_extractLsb', BitVec.extractLsb'_append_extractLsb'⟩

/-! ### The blocks at the front of a stream -/

theorem blockBytes_ofNat_beNat {bs : List Byte} (h : bs.length = 8) : blockBytes (BitVec.ofNat 64 (beNat bs)) = bs := by
  have hlt := beNat_lt bs
  rw [h] at hlt
  rw [blockBytes, BitVec.toNat_ofNat, Nat.mod_eq_of_lt (by omega), ← h, beBytes_beNat]

theorem blockBytes_injective : Function.Injective blockBytes := fun a b h => by
  rw [← ofNat_beNat_blockBytes a, h, ofNat_beNat_blockBytes]

theorem blockBytes_sentinel : blockBytes sentinel = List.replicate 8 0xFE#8 := by decide

theorem splitBlock_append {bs : List Byte} (h : bs.length = 8) (rest : List Byte) :
    splitBlock (bs ++ rest) = some (BitVec.ofNat 64 (beNat bs), rest) := by
  match bs, h with
  | [_, _, _, _, _, _, _, _], _ => rfl

@[simp] theorem splitBlock_blockBytes_append (b : Block) (rest : List Byte) :
    splitBlock (blockBytes b ++ rest) = some (b, rest) := by
  rw [splitBlock_append (blockBytes_length b), ofNat_beNat_blockBytes]

theorem splitBlock_eq_some_iff {bs rest : List Byte} {b : Block} :
    splitBlock bs = some (b, rest) ↔ bs = blockBytes b ++ rest := by
  refine ⟨fun h => ?_, fun h => h ▸ splitBlock_blockBytes_append b rest⟩
  unfold splitBlock at h
  split at h
  next =>
    cases h
    rw [blockBytes_ofNat_beNat rfl]
    rfl
  next => cases h

/-! ### The record at the front of a stream (30_encoding.md R98) -/

theorem readRecord_literal {b : Block} (hb : b ≠ sentinel) (rest : List Byte) :
    readRecord (encode (.literalBlock b) ++ rest) = .ok (.literalBlock b, rest) := by
  simp [readRecord, encode, hb]

theorem readRecord_run (count : Word64) (payload : Block) (rest : List Byte) :
    readRecord (encode (.runRecord count payload) ++ rest) = .ok (.runRecord count payload, rest) := by
  simp [readRecord, encode]

/-- Whatever is read is one of the two records, in its own encoding. -/
theorem readRecord_cases {bs rest : List Byte} {i : Instr} (h : readRecord bs = .ok (i, rest)) :
    bs = encode i ++ rest ∧
      ((∃ count payload, i = .runRecord count payload) ∨ ∃ b, b ≠ sentinel ∧ i = .literalBlock b) := by
  unfold readRecord at h
  split at h
  next => cases h
  next b r hfirst =>
    have hbs := splitBlock_eq_some_iff.1 hfirst
    split at h
    next hsent =>
      split at h
      next => cases h
      next count r' hcount =>
        split at h
        next => cases h
        next payload r'' hpayload =>
          cases h
          refine ⟨?_, .inl ⟨count, payload, rfl⟩⟩
          rw [hbs, hsent, splitBlock_eq_some_iff.1 hcount, splitBlock_eq_some_iff.1 hpayload]
          simp [encode]
    next hlit =>
      cases h
      exact ⟨hbs, .inr ⟨b, hlit, rfl⟩⟩

theorem readRecord_encode {i : Instr} (hf : i.format = .rleStream) (hw : i.wellFormed = true) (rest : List Byte) :
    readRecord (encode i ++ rest) = .ok (i, rest) := by
  cases i with
  | runRecord count payload => exact readRecord_run count payload rest
  | literalBlock b => exact readRecord_literal (by simpa [Instr.wellFormed] using hw) rest
  | decodeFrame | encodeFrame _ | compressRle | reservedCmd _ | fmtPixelpairYcbcra _ | fmtPixelpairRgba8888 _ => cases hf

/-- A stream that is one record and nothing more. -/
theorem decodeAs_rleStream_encode {i : Instr} (hf : i.format = .rleStream) (hw : i.wellFormed = true) :
    decodeAs .rleStream (encode i) = .ok i := by
  have h := readRecord_encode hf hw []
  rw [List.append_nil] at h
  simp only [decodeAs, h]

/-- The first eight bytes of a stream are those of its first block. -/
theorem take_blockBytes_append_eq_sentinel (b : Block) (rest : List Byte) :
    (blockBytes b ++ rest).take 8 = List.replicate 8 0xFE#8 ↔ b = sentinel := by
  rw [List.take_left' (blockBytes_length b), ← blockBytes_sentinel, blockBytes_injective.eq_iff]

/-! ### The command byte (30_encoding.md R81) -/

/-- A command byte is its reserved bits, PM and OP. -/
theorem cmd_eq_fields (c : Byte) : c.extractLsb' 3 5 ++ BitVec.ofBool (c.getLsbD 2) ++ c.extractLsb' 0 2 = c := by
  have hpm : BitVec.ofBool (c.getLsbD 2) = c.extractLsb' 2 1 := by
    ext i hi
    obtain rfl : i = 0 := by omega
    simp
  have htop : c.extractLsb' 3 5 ++ c.extractLsb' 2 1 = c.extractLsb' 2 6 :=
    BitVec.extractLsb'_append_extractLsb'_eq_extractLsb' rfl
  rw [hpm, htop]
  exact BitVec.extractLsb'_append_extractLsb'

theorem op_cases : ∀ op : BitVec 2, op = 0#2 ∨ op = 1#2 ∨ op = 2#2 ∨ op = 3#2 := by decide

/-- The reserved conditions of 30_encoding.md R84. -/
theorem decodeCmd_eq_reservedCmd_iff (c : Byte) :
    decodeCmd c = .reservedCmd c ↔
      c.extractLsb' 0 2 = 3#2 ∨ (c.getLsbD 2 = true ∧ (c.extractLsb' 0 2 = 0#2 ∨ c.extractLsb' 0 2 = 2#2)) ∨
        c.extractLsb' 3 5 ≠ 0#5 := by
  by_cases htop : c.extractLsb' 3 5 = 0#5
  · rcases op_cases (c.extractLsb' 0 2) with hop | hop | hop | hop <;>
      cases hpm : c.getLsbD 2 <;> simp [decodeCmd, htop, hop, hpm, -BitVec.getLsbD_eq_getElem]
  · simp [decodeCmd, htop]

/-- The opcode map (30_encoding.md R82). -/
theorem decodeCmd_defined :
    decodeCmd 0x00#8 = .decodeFrame ∧ decodeCmd 0x01#8 = .encodeFrame false ∧ decodeCmd 0x05#8 = .encodeFrame true ∧
      decodeCmd 0x02#8 = .compressRle := by decide

/-- A byte that meets none of the reserved conditions has its reserved bits clear and one of four pairs of PM and OP. -/
theorem decodeCmd_ne_reservedCmd_iff (c : Byte) :
    decodeCmd c ≠ .reservedCmd c ↔ c = 0x00#8 ∨ c = 0x01#8 ∨ c = 0x02#8 ∨ c = 0x05#8 := by
  constructor
  · intro h
    rw [Ne, decodeCmd_eq_reservedCmd_iff, not_or, not_or, not_not] at h
    obtain ⟨hop3, hpm2, htop⟩ := h
    rw [← cmd_eq_fields c, htop]
    rcases op_cases (c.extractLsb' 0 2) with hop | hop | hop | hop
    · have hpm : c.getLsbD 2 = false := Bool.eq_false_iff.2 fun hset => hpm2 ⟨hset, .inl hop⟩
      rw [hop, hpm]
      exact .inl rfl
    · rw [hop]
      cases c.getLsbD 2 with
      | false => exact .inr (.inl rfl)
      | true => exact .inr (.inr (.inr rfl))
    · have hpm : c.getLsbD 2 = false := Bool.eq_false_iff.2 fun hset => hpm2 ⟨hset, .inr hop⟩
      rw [hop, hpm]
      exact .inr (.inr (.inl rfl))
    · exact absurd hop hop3
  · obtain ⟨h0, h1, h5, h2⟩ := decodeCmd_defined
    rintro (rfl | rfl | rfl | rfl)
    · simp [h0]
    · simp [h1]
    · simp [h2]
    · simp [h5]

end Sys2Proof

namespace Sys2Proof.Machine

/-! ### The obligations -/

/-- Settles O7: every field joins the bottom of one byte, or a whole byte, with the top of the next, or a whole one. -/
theorem yCbCrAFieldExtraction : Obligations.YCbCrAFieldExtraction := by
  intro g
  have h15 (n : Nat) : n &&& 0x0F = n % 2 ^ 4 := Nat.and_two_pow_sub_one_eq_mod n 4
  have h3 (n : Nat) : n &&& 0x03 = n % 2 ^ 2 := Nat.and_two_pow_sub_one_eq_mod n 2
  have alpha (b c : Byte) : (b ++ c.extractLsb' 4 4).toNat = (b.toNat <<< 4) ||| (c.toNat / 2 ^ 4) := by
    rw [BitVec.toNat_append, toNat_extractLsb'_top c rfl]
  have luma (b c : Byte) : (b.extractLsb' 0 2 ++ c).toNat = ((b.toNat % 2 ^ 2) <<< 8) ||| c.toNat := by
    rw [BitVec.toNat_append, toNat_extractLsb'_bottom]
  simp only [h15, h3, Nat.shiftRight_eq_div_pow]
  exact ⟨alpha g.b0 g.b1, toNat_bottom_append_top g.b1 4 g.b2 rfl, luma g.b2 g.b3, alpha g.b4 g.b5,
    toNat_bottom_append_top g.b5 4 g.b6 rfl, luma g.b6 g.b7, rfl⟩

/-- Settles O8: each half of a group is a big-endian word of its four bytes. -/
theorem yCbCrAAsTwoWords : Obligations.YCbCrAAsTwoWords := fun s g =>
  ⟨(s.memRead_eq_beNat (8 * g) 4).trans (beNat_eq_layoutWord _ _ _ _),
    (s.memRead_eq_beNat (8 * g + 4) 4).trans (beNat_eq_layoutWord _ _ _ _)⟩

/-- Settles O9: the bytes one by one, then the two inverse laws; packEncoded is packYCbCrA with another b2 by definition. -/
theorem yCbCrAFieldInsertion : Obligations.YCbCrAFieldInsertion :=
  ⟨fun f => ⟨toNat_extractLsb'_top f.a0 rfl, toNat_bottom_append_top f.a0 4 f.cb rfl,
      toNat_bottom_append_top f.cb 6 f.y0 rfl, toNat_extractLsb'_bottom f.y0 8, toNat_extractLsb'_top f.a1 rfl,
      toNat_bottom_append_top f.a1 4 f.cr rfl, toNat_bottom_append_top f.cr 6 f.y1 rfl,
      toNat_extractLsb'_bottom f.y1 8, unpackYCbCrA_packYCbCrA f⟩,
    packYCbCrA_unpackYCbCrA, fun _ => rfl⟩

/-- Settles O12: a record read is in its own encoding, whose first block is the sentinel for a run-record only. -/
theorem streamReadsRecordByRecord : Obligations.StreamReadsRecordByRecord := by
  refine ⟨fun i rest hf hw => readRecord_encode hf hw rest, fun bs rest i h => ?_⟩
  obtain ⟨rfl, ⟨count, payload, rfl⟩ | ⟨b, hb, rfl⟩⟩ := readRecord_cases h
  · refine ⟨rfl, rfl, rfl, (Laws.EncodeLength.runRecord count payload).trans (if_pos ?_).symm⟩
    rw [encode, List.append_assoc, List.append_assoc, take_blockBytes_append_eq_sentinel]
  · refine ⟨rfl, rfl, by simpa [Instr.wellFormed] using hb, (Laws.EncodeLength.literalBlock b).trans (if_neg ?_).symm⟩
    rwa [encode, take_blockBytes_append_eq_sentinel]

/-- Settles O2: the opcode map; the stream words are the encodings of their records. -/
theorem sampleWordsDecode : Obligations.SampleWordsDecode := by
  obtain ⟨hdecode, hencode, hpremultiplied, hcompress⟩ := decodeCmd_defined
  have hrun : encode (.runRecord 300#64 0x7E7E7E7E7E7E7E7E#64) =
      List.replicate 8 0xFE#8 ++ [0#8, 0#8, 0#8, 0#8, 0#8, 0#8, 1#8, 0x2C#8] ++ List.replicate 8 0x7E#8 := by decide
  have hliteral : encode (.literalBlock 0x0102030405060708#64) = [1#8, 2#8, 3#8, 4#8, 5#8, 6#8, 7#8, 8#8] := by decide
  exact ⟨hdecode, hencode, hpremultiplied, hcompress, by decide, (rgbaByteOrder _ _ _ _ _ _ _ _).1,
    hrun ▸ decodeAs_rleStream_encode rfl rfl, hliteral ▸ decodeAs_rleStream_encode rfl (by decide)⟩

/-- Settles O3: the command byte by its fields; a step with a reserved value runs the refused row. -/
theorem reservedCommandsHaveNoStep : Obligations.ReservedCommandsHaveNoStep := by
  refine ⟨decodeCmd_eq_reservedCmd_iff, decodeCmd_ne_reservedCmd_iff, fun _ _ => rfl, fun s h => ?_⟩
  rw [step, State.fetched, h]
  rfl

end Sys2Proof.Machine
end

section
/-!
DECODE_FRAME's operands and arithmetic: the luma samples under DEC_Y_TOP (40_decode_ycbcra_to_rgba.md R125), the channel
values as fractions of integers (R135), and when NARROW8 plays no part (R137).
-/

namespace Sys2Proof.Machine

/-! ### The fields of a group under DEC_Y_TOP -/

/-- A luma sample as a number: two top bits from one byte, the low bits are another byte. -/
theorem toNat_lumaSample (top low : Byte) : (top.extractLsb' 0 2 ++ low).toNat = (top.toNat % 4) * 256 + low.toNat := by
  rw [toNat_append_eq_add, toNat_extractLsb'_bottom]
  rfl

/-- With equal top-bit fields DEC_Y_TOP selects among equal bits. -/
theorem decodeFields_eq_of_topBits_eq {g : Group} (h : g.b2.extractLsb' 0 2 = g.b6.extractLsb' 0 2) (top : DecYTop) :
    decodeFields top g = unpackYCbCrA g := by
  cases top with
  | layout => rfl
  | second => simp only [decodeFields, lumaTop0, lumaTop1, unpackYCbCrA, h]
  | first => simp only [decodeFields, lumaTop0, lumaTop1, unpackYCbCrA, h]

/-- ENCODE_FRAME's packing puts pixel 1's top luma bits in both halves (41_encode_rgba_to_ycbcra.md R162). -/
theorem packEncoded_topBits_eq (f : YCbCrA) :
    (packEncoded f).b2.extractLsb' 0 2 = (packEncoded f).b6.extractLsb' 0 2 := by
  simp only [packEncoded, BitVec.extractLsb'_append_eq_right]

/-- A group whose two luma samples are equal comes back from ENCODE_FRAME's packing under every DEC_Y_TOP. -/
theorem decodeFields_packEncoded {f : YCbCrA} (h : f.y0 = f.y1) (top : DecYTop) :
    decodeFields top (packEncoded f) = f := by
  have hpack : packEncoded f = packYCbCrA f := by simp only [packEncoded, packYCbCrA, h]
  rw [decodeFields_eq_of_topBits_eq (packEncoded_topBits_eq f), hpack, unpackYCbCrA_packYCbCrA]

/-- Settles O20: the samples by their bits; equal top-bit fields make the three choices one, and the packing of
ENCODE_FRAME has them equal. -/
theorem decodeTopLumaBits : Obligations.DecodeTopLumaBits := by
  refine ⟨fun g => ⟨toNat_lumaSample g.b2 g.b3, toNat_lumaSample g.b6 g.b7, toNat_lumaSample g.b6 g.b3,
    toNat_lumaSample g.b6 g.b7, toNat_lumaSample g.b2 g.b3, toNat_lumaSample g.b2 g.b7⟩,
    fun top top' table g h => ?_, fun pm g => packEncoded_topBits_eq _⟩
  rw [decodeGroup, decodeGroup, decodeFields_eq_of_topBits_eq h, decodeFields_eq_of_topBits_eq h]

/-! ### The channel values as fractions (R135) -/

theorem reconstructR_eq_div (y cr : BitVec 10) :
    reconstructR (lumaExpand y) (chromaExpand cr) =
      (((64 * (y.toNat : Int) - 4096) * 17500 + ((cr.toNat : Int) - 512) * 1724406 : Int) : Rat) / 3832500 := by
  simp only [reconstructR, lumaExpand, chromaExpand, yShift, yOffset, yDiv, chromaGain, chromaOffset, kr, mid,
    Nat.shiftLeft_eq]
  push_cast
  ring

theorem reconstructB_eq_div (y cb : BitVec 10) :
    reconstructB (lumaExpand y) (chromaExpand cb) =
      (((64 * (y.toNat : Int) - 4096) * 17500 + ((cb.toNat : Int) - 512) * 2031882 : Int) : Rat) / 3832500 := by
  simp only [reconstructB, lumaExpand, chromaExpand, yShift, yOffset, yDiv, chromaGain, chromaOffset, kb, mid,
    Nat.shiftLeft_eq]
  push_cast
  ring

theorem reconstructG_eq_div (y cb cr : BitVec 10) :
    reconstructG (lumaExpand y) (chromaExpand cb) (chromaExpand cr) =
      (((64 * (y.toNat : Int) - 4096) * 125160000 - ((cb.toNat : Int) - 512) * 1467018804 -
        ((cr.toNat : Int) - 512) * 3666087156 : Int) : Rat) / 27410040000 := by
  simp only [reconstructG, lumaExpand, chromaExpand, yShift, yOffset, yDiv, chromaGain, chromaOffset, kr, kg, kb, mid,
    Nat.shiftLeft_eq]
  push_cast
  ring

theorem alphaQuotient_eq_div (a : BitVec 12) :
    alphaQuotient a = ((5 * ((a.toNat : Int) - 16) : Int) : Rat) / (18 : Nat) := by
  simp only [alphaQuotient, alphaDecOffset, alphaDecDiv]
  push_cast
  ring

/-! ### Truncation and narrowing -/

/-- trunc0 of a fraction is integer division truncating toward zero. -/
theorem trunc0_div (n : Int) {d : Nat} (hd : 0 < d) : trunc0 ((n : Rat) / d) = n.tdiv d := by
  have hd' : (0 : Rat) < d := by exact_mod_cast hd
  by_cases hn : 0 ≤ n
  · have hq : (0 : Rat) ≤ (n : Rat) / d := div_nonneg (by exact_mod_cast hn) hd'.le
    rw [trunc0, if_pos hq, Int.tdiv_eq_ediv_of_nonneg hn]
    exact Rat.floor_intCast_div_natCast n d
  · have hq : ¬ (0 : Rat) ≤ (n : Rat) / d := by
      rw [not_le]
      exact div_neg_of_neg_of_pos (by exact_mod_cast not_le.1 hn) hd'
    have hneg : -((n : Rat) / d) = ((-n : Int) : Rat) / d := by push_cast; ring
    rw [trunc0, if_neg hq, hneg, ← neg_neg (n.tdiv d), ← Int.neg_tdiv, Int.tdiv_eq_ediv_of_nonneg (by omega)]
    exact congrArg Neg.neg (Rat.floor_intCast_div_natCast (-n) d)

/-- Inside 0..255 NARROW8 is not asked (00_scope.md section 5). -/
theorem narrow8_of_mem {t : Int} (h0 : 0 ≤ t) (h255 : t ≤ 255) (table : Narrow8Table) :
    narrow8 table t = BitVec.ofInt 8 t := if_pos ⟨h0, h255⟩

theorem channelByte_of_ge {v : Rat} (h : 255 ≤ v) (table : Narrow8Table) : channelByte table v = 255#8 := by
  have hv : (if v ≤ chanMax then v else chanMax) = 255 := by
    rw [chanMax]
    split
    next hle => exact le_antisymm hle h
    next => rfl
  have htrunc : trunc0 255 = 255 := by decide +kernel
  rw [channelByte, hv, htrunc, narrow8_of_mem (by decide) (by decide)]
  rfl

theorem channelByte_of_lt {v : Rat} (h : v < 255) (table : Narrow8Table) :
    channelByte table v = narrow8 table (trunc0 v) := by
  rw [channelByte, if_pos (show v ≤ chanMax from h.le)]

/-- The channel byte of a fraction, on integers alone (R135). -/
theorem channelByte_div (table : Narrow8Table) (n : Int) {d : Nat} (hd : 0 < d) :
    channelByte table ((n : Rat) / d) = if 255 * (d : Int) ≤ n then 255#8 else narrow8 table (n.tdiv d) := by
  have hd' : (0 : Rat) < d := by exact_mod_cast hd
  split
  next h => exact channelByte_of_ge ((le_div_iff₀ hd').2 (by exact_mod_cast h)) table
  next h =>
    have hlt : (n : Rat) / d < 255 := (div_lt_iff₀ hd').2 (by exact_mod_cast not_le.1 h)
    rw [channelByte_of_lt hlt, trunc0_div n hd]

theorem alphaByte_eq_narrow8_tdiv (table : Narrow8Table) (a : BitVec 12) :
    alphaByte table a = narrow8 table ((5 * ((a.toNat : Int) - 16)).tdiv 18) := by
  rw [alphaByte, alphaQuotient_eq_div, trunc0_div _ (by decide)]
  rfl

/-- Settles O19: the three values as fractions, then the byte of a fraction. -/
theorem decodeIntegerForm : Obligations.DecodeIntegerForm := by
  intro table y cb cr a
  refine ⟨reconstructR_eq_div y cr, reconstructB_eq_div y cb, reconstructG_eq_div y cb cr, ?_, ?_, ?_,
    alphaByte_eq_narrow8_tdiv table a⟩
  · rw [reconstructR_eq_div]
    exact channelByte_div table _ (d := 3832500) (by decide)
  · rw [reconstructB_eq_div]
    exact channelByte_div table _ (d := 3832500) (by decide)
  · rw [reconstructG_eq_div]
    exact channelByte_div table _ (d := 27410040000) (by decide)

/-! ### When NARROW8 plays no part (R137) -/

/-- What truncates to a byte is above -1 and below 256. -/
theorem trunc0_mem_byte {v : Rat} (h : -1 < v) (h' : v < 256) : 0 ≤ trunc0 v ∧ trunc0 v ≤ 255 := by
  rw [trunc0]
  split
  next hv =>
    have hlt : v.floor < 256 := Rat.floor_lt_iff.2 h'
    exact ⟨Rat.le_floor_iff.2 hv, by omega⟩
  next hv =>
    have h0 : 0 ≤ (-v).floor := Rat.le_floor_iff.2 (by push_cast; linarith)
    have h1 : (-v).floor < 1 := Rat.floor_lt_iff.2 (by push_cast; linarith)
    omega

theorem narrow8_trunc0_congr {v : Rat} (h : -1 < v) (h' : v < 256) (table table' : Narrow8Table) :
    narrow8 table (trunc0 v) = narrow8 table' (trunc0 v) := by
  obtain ⟨h0, h255⟩ := trunc0_mem_byte h h'
  rw [narrow8_of_mem h0 h255, narrow8_of_mem h0 h255]

/-- Above 255 a channel value is clamped, so -1 is its only bound. -/
theorem channelByte_congr {v : Rat} (h : -1 < v) (table table' : Narrow8Table) :
    channelByte table v = channelByte table' v := by
  rcases lt_or_ge v 255 with hlt | hge
  · rw [channelByte_of_lt hlt, channelByte_of_lt hlt]
    exact narrow8_trunc0_congr h (by linarith) table table'
  · rw [channelByte_of_ge hge, channelByte_of_ge hge]

/-- The alpha fields 13..937 are those whose quotient truncates to a byte (R130). -/
theorem alphaByte_congr {a : BitVec 12} (h : 13 ≤ a.toNat) (h' : a.toNat ≤ 937) (table table' : Narrow8Table) :
    alphaByte table a = alphaByte table' a := by
  have hlo : (13 : Rat) ≤ a.toNat := by exact_mod_cast h
  have hhi : (a.toNat : Rat) ≤ 937 := by exact_mod_cast h'
  have hlow : -1 < alphaQuotient a := by
    rw [alphaQuotient, alphaDecOffset, alphaDecDiv]
    linarith
  have hhigh : alphaQuotient a < 256 := by
    rw [alphaQuotient, alphaDecOffset, alphaDecDiv]
    linarith
  exact narrow8_trunc0_congr hlow hhigh table table'

/-- Every channel value of the group's fields is above -1: the first premise of R137. -/
def ChannelsAboveNegOne (f : YCbCrA) : Prop :=
  ∀ y, y = f.y0 ∨ y = f.y1 →
    -1 < reconstructR (lumaExpand y) (chromaExpand f.cr) ∧ -1 < reconstructB (lumaExpand y) (chromaExpand f.cb) ∧
    -1 < reconstructG (lumaExpand y) (chromaExpand f.cb) (chromaExpand f.cr)

theorem decodePixels_congr {f : YCbCrA} (hchan : ChannelsAboveNegOne f) (h0 : 13 ≤ f.a0.toNat) (h0' : f.a0.toNat ≤ 937)
    (h1 : 13 ≤ f.a1.toNat) (h1' : f.a1.toNat ≤ 937) (table table' : Narrow8Table) :
    decodePixels table f = decodePixels table' f := by
  obtain ⟨hr0, hb0, hg0⟩ := hchan f.y0 (.inl rfl)
  obtain ⟨hr1, hb1, hg1⟩ := hchan f.y1 (.inr rfl)
  simp only [decodePixels, RGBA.mk.injEq]
  exact ⟨channelByte_congr hr0 _ _, channelByte_congr hg0 _ _, channelByte_congr hb0 _ _, alphaByte_congr h0 h0' _ _,
    channelByte_congr hr1 _ _, channelByte_congr hg1 _ _, channelByte_congr hb1 _ _, alphaByte_congr h1 h1' _ _⟩

end Sys2Proof.Machine
end

section
/-!
ENCODE_FRAME's quantisation (41_encode_rgba_to_ycbcra.md R155 to R160): the samples lie on [0, 1], so the clamps do not
bind and each code is within one half of the value it rounds. Two equal opaque pixels then decode to values within
one half, too, of 256 times the samples (40_decode_ycbcra_to_rgba.md R137).
-/

namespace Sys2Proof.Machine

/-! ### Rounding and clamping -/

theorem rhaz_close (q : Rat) : |(rhaz q : Rat) - q| ≤ 1 / 2 := by
  rw [abs_le, rhaz]
  split
  next =>
    have hle := Rat.floor_le (q + 1 / 2)
    have hlt := Rat.lt_floor_add_one (q + 1 / 2)
    push_cast at hlt
    constructor <;> linarith
  next =>
    have hle := Rat.floor_le (-q + 1 / 2)
    have hlt := Rat.lt_floor_add_one (-q + 1 / 2)
    push_cast at hlt ⊢
    constructor <;> linarith

/-- Rounding does not leave an interval with integer ends. -/
theorem rhaz_mem {q : Rat} {lo hi : Int} (hlo : (lo : Rat) ≤ q) (hhi : q ≤ hi) : lo ≤ rhaz q ∧ rhaz q ≤ hi := by
  obtain ⟨hge, hle⟩ := abs_le.1 (rhaz_close q)
  have h1 : ((lo - 1 : Int) : Rat) < rhaz q := by push_cast; linarith
  have h2 : (rhaz q : Rat) < ((hi + 1 : Int) : Rat) := by push_cast; linarith
  have h1' : lo - 1 < rhaz q := by exact_mod_cast h1
  have h2' : rhaz q < hi + 1 := by exact_mod_cast h2
  omega

theorem clampInt_of_mem {v lo hi : Int} (hlo : lo ≤ v) (hhi : v ≤ hi) : clampInt v lo hi = v := by
  rw [clampInt, min_eq_right hhi, max_eq_right hlo]

theorem toNat_ofInt_clampInt {v lo hi : Int} (hlo : lo ≤ v) (hhi : v ≤ hi) (h0 : 0 ≤ lo) (h10 : hi < 1024) :
    ((BitVec.ofInt 10 (clampInt v lo hi)).toNat : Int) = v := by
  rw [clampInt_of_mem hlo hhi, BitVec.toNat_ofInt]
  omega

/-- The luma clamp does not bind on [0, 1] (R165). -/
theorem lumaCode_toNat {yq : Rat} (h0 : 0 ≤ yq) (h1 : yq ≤ 1) : ((lumaCode yq).toNat : Int) = rhaz (yq * 876) + 64 := by
  obtain ⟨hlo, hhi⟩ := rhaz_mem (q := yq * 876) (lo := 0) (hi := 876) (by push_cast; linarith) (by push_cast; linarith)
  refine toNat_ofInt_clampInt (v := lumaPreClamp yq) ?_ ?_ (by decide) (by decide) <;>
    simp only [lumaPreClamp, lumaScale, lumaBase, lumaMin, lumaMax] <;> omega

/-- The chroma clamp does not bind on [-1/2, 1/2] (R165). -/
theorem chromaCode_toNat {c : Rat} (h : |c| ≤ 1 / 2) : ((chromaCode c).toNat : Int) = rhaz (c * 896) + 512 := by
  obtain ⟨h0, h1⟩ := abs_le.1 h
  obtain ⟨hlo, hhi⟩ := rhaz_mem (q := c * 896) (lo := -448) (hi := 448) (by push_cast; linarith) (by push_cast; linarith)
  refine toNat_ofInt_clampInt (v := chromaPreClamp c) ?_ ?_ (by decide) (by decide) <;>
    simp only [chromaPreClamp, chromaScale, chromaBase, chromaMin, chromaMax] <;> omega

theorem lumaCode_close {yq : Rat} (h0 : 0 ≤ yq) (h1 : yq ≤ 1) :
    |((lumaCode yq).toNat : Rat) - (yq * 876 + 64)| ≤ 1 / 2 := by
  have hcode : ((lumaCode yq).toNat : Rat) = rhaz (yq * 876) + 64 := by exact_mod_cast lumaCode_toNat h0 h1
  rw [hcode, add_sub_add_right_eq_sub]
  exact rhaz_close _

theorem chromaCode_close {c : Rat} (h : |c| ≤ 1 / 2) : |((chromaCode c).toNat : Rat) - (c * 896 + 512)| ≤ 1 / 2 := by
  have hcode : ((chromaCode c).toNat : Rat) = rhaz (c * 896) + 512 := by exact_mod_cast chromaCode_toNat h
  rw [hcode, add_sub_add_right_eq_sub]
  exact rhaz_close _

/-! ### Samples, luma and chroma -/

theorem normalise_mem (v : Byte) : 0 ≤ normalise v ∧ normalise v ≤ 1 := by
  have h : (v.toNat : Rat) ≤ 255 := by exact_mod_cast Nat.le_of_lt_succ v.isLt
  rw [normalise, sampleMax]
  exact ⟨by positivity, (div_le_one (by norm_num)).2 h⟩

section UnitSamples

variable {r g b : Rat} (hr : 0 ≤ r ∧ r ≤ 1) (hg : 0 ≤ g ∧ g ≤ 1) (hb : 0 ≤ b ∧ b ≤ 1)

include hr hg hb

/-- The luma weights are positive and add up to 1 (R157). -/
theorem lumaOf_mem : 0 ≤ lumaOf r g b ∧ lumaOf r g b ≤ 1 := by
  simp only [lumaOf, kr, kg, kb]
  constructor <;> linarith

/-- CB_DIV is twice the largest blue difference (R158). -/
theorem abs_chromaOf_cb_le : |chromaOf b (lumaOf r g b) cbDiv| ≤ 1 / 2 := by
  simp only [abs_le, chromaOf, lumaOf, kr, kg, kb, cbDiv]
  constructor <;> linarith

/-- CR_DIV is twice the largest red difference (R158). -/
theorem abs_chromaOf_cr_le : |chromaOf r (lumaOf r g b) crDiv| ≤ 1 / 2 := by
  simp only [abs_le, chromaOf, lumaOf, kr, kg, kb, crDiv]
  constructor <;> linarith

/-- Decoding the codes of a colour gives back 256 times its samples but for the rounding of the codes, whose part in a
channel value is below one half. -/
theorem reconstruct_codes_close :
    |reconstructR (lumaExpand (lumaCode (lumaOf r g b))) (chromaExpand (chromaCode (chromaOf r (lumaOf r g b) crDiv))) -
      256 * r| < 1 / 2 ∧
    |reconstructB (lumaExpand (lumaCode (lumaOf r g b))) (chromaExpand (chromaCode (chromaOf b (lumaOf r g b) cbDiv))) -
      256 * b| < 1 / 2 ∧
    |reconstructG (lumaExpand (lumaCode (lumaOf r g b))) (chromaExpand (chromaCode (chromaOf b (lumaOf r g b) cbDiv)))
      (chromaExpand (chromaCode (chromaOf r (lumaOf r g b) crDiv))) - 256 * g| < 1 / 2 := by
  obtain ⟨hy0, hy1⟩ := lumaOf_mem hr hg hb
  obtain ⟨hy, hy'⟩ := abs_le.1 (lumaCode_close hy0 hy1)
  obtain ⟨hcb, hcb'⟩ := abs_le.1 (chromaCode_close (abs_chromaOf_cb_le hr hg hb))
  obtain ⟨hcr, hcr'⟩ := abs_le.1 (chromaCode_close (abs_chromaOf_cr_le hr hg hb))
  generalize lumaCode (lumaOf r g b) = y at *
  generalize chromaCode (chromaOf b (lumaOf r g b) cbDiv) = cb at *
  generalize chromaCode (chromaOf r (lumaOf r g b) crDiv) = cr at *
  simp only [chromaOf, lumaOf, kr, kg, kb, cbDiv, crDiv] at hy hy' hcb hcb' hcr hcr'
  rw [reconstructR_eq_div, reconstructB_eq_div, reconstructG_eq_div]
  push_cast
  simp only [abs_lt]
  refine ⟨⟨?_, ?_⟩, ⟨?_, ?_⟩, ?_, ?_⟩ <;> linarith

end UnitSamples

/-! ### Two equal opaque pixels -/

/-- The fields ENCODE_FRAME quantises from two pixels of one opaque colour, without premultiply. -/
def opaquePairFields (r g b : Byte) : YCbCrA := encodePixels false ⟨r, g, b, 255#8, r, g, b, 255#8⟩

theorem neg_one_lt_of_close {v x : Rat} (h : |v - 256 * x| < 1 / 2) (hx : 0 ≤ x) : -1 < v := by
  linarith [(abs_lt.1 h).1]

theorem channelsAboveNegOne_opaquePairFields (r g b : Byte) : ChannelsAboveNegOne (opaquePairFields r g b) := by
  have hr := normalise_mem r
  have hg := normalise_mem g
  have hb := normalise_mem b
  obtain ⟨hR, hB, hG⟩ := reconstruct_codes_close hr hg hb
  rintro y (rfl | rfl) <;>
    exact ⟨neg_one_lt_of_close hR hr.1, neg_one_lt_of_close hB hb.1, neg_one_lt_of_close hG hg.1⟩

/-- Settles O23: a byte whose value truncates into 0..255 does not ask NARROW8; the codes of an opaque colour decode to
within one half of non-negative values, and come back from the packing under every DEC_Y_TOP. -/
theorem decodeWithoutNarrow8 : Obligations.DecodeWithoutNarrow8 := by
  refine ⟨fun table table' f hchan h0 h0' h1 h1' => decodePixels_congr hchan h0 h0' h1 h1' table table',
    fun top r g b => ?_⟩
  have hfields : decodeFields top (encodeGroup false ⟨r, g, b, 255#8, r, g, b, 255#8⟩) = opaquePairFields r g b :=
    decodeFields_packEncoded (f := opaquePairFields r g b) rfl top
  have halpha : alphaCode 255#8 = 937#12 := by decide
  rw [hfields]
  exact ⟨channelsAboveNegOne_opaquePairFields r g b, halpha, halpha⟩

end Sys2Proof.Machine
end

section
/-!
WIDTH and HEIGHT are read by no operation (40_decode_ycbcra_to_rgba.md R132, 41_encode_rgba_to_ycbcra.md R166): setting
them before a piece of an operation's work or after it comes to the same, for each piece and so for the whole.
-/

namespace Sys2Proof.Machine

/-- The state with other values in WIDTH and HEIGHT. -/
def State.withSize (w h : Word32) (s : State) : State := { s with width := w, height := h }

/-- The function neither reads nor writes WIDTH and HEIGHT. -/
def IgnoresSize (body : State → State) : Prop := ∀ w h, Function.Commute body (State.withSize w h)

theorem IgnoresSize.comp {body body' : State → State} (hb : IgnoresSize body) (hb' : IgnoresSize body') :
    IgnoresSize (body ∘ body') := fun w h => (hb w h).comp_left (hb' w h)

/-- A choice by a condition that setting the two registers does not change. -/
theorem IgnoresSize.ite {p : State → Prop} [DecidablePred p] {body body' : State → State}
    (hp : ∀ w h s, p (s.withSize w h) ↔ p s) (hb : IgnoresSize body) (hb' : IgnoresSize body') :
    IgnoresSize fun s => if p s then body s else body' s := by
  intro w h s
  by_cases hs : p s
  · simp only [hp, if_pos hs]
    exact hb w h s
  · simp only [hp, if_neg hs]
    exact hb' w h s

theorem ignoresSize_scanSteps {body : State → State} (hb : IgnoresSize body) (n : Nat) :
    IgnoresSize (scanSteps body n) := by
  induction n with
  | zero => exact fun _ _ _ => rfl
  | succ n ih => exact ih.comp hb

theorem ignoresSize_scanInput {body : State → State} (hb : IgnoresSize body) : IgnoresSize (scanInput body) :=
  fun w h s => ignoresSize_scanSteps hb s.groupCount w h { s with scan := 0 }

theorem ignoresSize_guarded {body : State → State} (hb : IgnoresSize body) (request : Nat) :
    IgnoresSize (guarded request body) :=
  .ite (fun _ _ _ => Iff.rfl) (fun _ _ _ => rfl)
    (.ite (fun _ _ _ => Iff.rfl) (hb.comp fun _ _ _ => rfl) fun _ _ _ => rfl)

/-! ### The colour operations -/

theorem ignoresSize_transformStep (f : Group → Group) : IgnoresSize (transformStep f) := fun _ _ _ => rfl

theorem ignoresSize_decodeBody : IgnoresSize decodeBody := fun w h s =>
  congrArg (·.complete s.len) (ignoresSize_scanInput (ignoresSize_transformStep (decodeGroup s.decYTop s.narrow8)) w h s)

theorem ignoresSize_encodeBody (pm : Bool) : IgnoresSize (encodeBody pm) := fun w h s =>
  congrArg (·.complete s.len) (ignoresSize_scanInput (ignoresSize_transformStep (encodeGroup pm)) w h s)

/-! ### COMPRESS_RLE -/

theorem State.withSize_emitBlock (w h : Word32) (b : Block) (s : State) :
    (s.withSize w h).emitBlock b = (s.emitBlock b).withSize w h := rfl

theorem State.withSize_emitAll (w h : Word32) (bs : List Block) (s : State) :
    (s.withSize w h).emitAll bs = (s.emitAll bs).withSize w h := by
  induction bs generalizing s with
  | nil => rfl
  | cons b bs ih => simp only [State.emitAll, withSize_emitBlock, ih]

theorem ignoresSize_flush : IgnoresSize State.flush := fun w h s => by
  rw [State.flush_eq_emitAll, State.flush_eq_emitAll]
  exact s.withSize_emitAll w h _

theorem ignoresSize_takeBlock (blk : Block) : IgnoresSize (State.takeBlock blk) :=
  .ite (fun _ _ _ => Iff.rfl) (fun _ _ _ => rfl) fun w h s =>
    congrArg (fun u : State => { u with prev := blk, count := 1 }) (ignoresSize_flush w h s)

theorem ignoresSize_rleStep : IgnoresSize rleStep := fun w h s =>
  congrArg State.advance (ignoresSize_takeBlock (s.readBlock s.scan) w h s)

theorem ignoresSize_compressBody : IgnoresSize compressBody :=
  .ite (fun _ _ _ => Iff.rfl) (fun _ _ _ => rfl) fun w h s =>
    congrArg (fun u : State => u.complete u.wptr)
      ((ignoresSize_flush.comp (ignoresSize_scanInput ignoresSize_rleStep)) w h s.startRun)

/-- Settles O56: each operation is its own work under the guard; the other rows have no step. -/
theorem widthAndHeightIgnored : Obligations.WidthAndHeightIgnored := by
  intro i s t w h he
  cases i with
  | decodeFrame =>
    obtain rfl := Host.Outcome.next.inj he
    exact congrArg Host.Outcome.next (ignoresSize_guarded ignoresSize_decodeBody s.len.toNat w h s)
  | encodeFrame pm =>
    obtain rfl := Host.Outcome.next.inj he
    exact congrArg Host.Outcome.next (ignoresSize_guarded (ignoresSize_encodeBody pm) s.len.toNat w h s)
  | compressRle =>
    obtain rfl := Host.Outcome.next.inj he
    exact congrArg Host.Outcome.next (ignoresSize_guarded ignoresSize_compressBody (rleProvision * s.len.toNat) w h s)
  | reservedCmd _ | runRecord _ _ | literalBlock _ | fmtPixelpairYcbcra _ | fmtPixelpairRgba8888 _ => cases he

end Sys2Proof.Machine
end

section
/-!
ENCODE_FRAME's arithmetic (41_encode_rgba_to_ycbcra.md R155 to R160): premultiplication, the chroma of the second pixel,
the range of every quantised value, and the values as fractions of integers (R164).
-/

namespace Sys2Proof.Machine

/-! ### A colour sample and its pixel's alpha (R156) -/

@[simp] theorem normalise_zero : normalise 0#8 = 0 := by decide +kernel

@[simp] theorem normalise_max : normalise 255#8 = 1 := by decide +kernel

@[simp] theorem colourSample_straight (v al : Byte) : colourSample false v al = normalise v := rfl

theorem colourSample_premultiplied (v al : Byte) : colourSample true v al = normalise v * normalise al := rfl

/-- Alpha 255 scales by 1. -/
theorem colourSample_opaque (pm : Bool) (v : Byte) : colourSample pm v 255#8 = normalise v := by
  cases pm with
  | false => rfl
  | true => rw [colourSample_premultiplied, normalise_max, mul_one]

/-- A pixel whose samples are not scaled: PM = 0, or alpha 255. -/
theorem colourSample_unscaled {pm : Bool} {al : Byte} (h : pm = false ∨ al = 255#8) (v : Byte) :
    colourSample pm v al = normalise v := by
  rcases h with rfl | rfl
  · rfl
  · exact colourSample_opaque pm v

/-- Alpha 0 scales by 0. -/
theorem colourSample_transparent (v : Byte) : colourSample true v 0#8 = 0 := by
  rw [colourSample_premultiplied, normalise_zero, mul_zero]

/-- Premultiplied or not, a colour sample stays on [0, 1]. -/
theorem colourSample_mem (pm : Bool) (v al : Byte) : 0 ≤ colourSample pm v al ∧ colourSample pm v al ≤ 1 := by
  obtain ⟨hv0, hv1⟩ := normalise_mem v
  obtain ⟨ha0, ha1⟩ := normalise_mem al
  cases pm with
  | false => exact ⟨hv0, hv1⟩
  | true => exact ⟨mul_nonneg hv0 ha0, mul_le_one₀ hv1 ha0 ha1⟩

/-! ### The luma of a pixel and the chroma of a group -/

theorem pixelLuma_opaque (pm : Bool) (r g b : Byte) :
    pixelLuma pm r g b 255#8 = lumaOf (normalise r) (normalise g) (normalise b) := by
  simp only [pixelLuma, colourSample_opaque]

theorem pixelLuma_transparent (r g b : Byte) : pixelLuma true r g b 0#8 = 0 := by
  simp only [pixelLuma, colourSample_transparent, lumaOf, mul_zero, add_zero]

theorem groupCb_transparent {p : RGBA} (h : p.a1 = 0#8) : groupCb true p = 0 := by
  simp only [groupCb, chromaOf, h, colourSample_transparent, pixelLuma_transparent, sub_self, zero_div]

theorem groupCr_transparent {p : RGBA} (h : p.a1 = 0#8) : groupCr true p = 0 := by
  simp only [groupCr, chromaOf, h, colourSample_transparent, pixelLuma_transparent, sub_self, zero_div]

/-- A black pixel's luma code. -/
theorem lumaCode_zero : lumaCode 0 = 64#10 := by decide +kernel

/-- The chroma code of every grey. -/
theorem chromaCode_zero : chromaCode 0 = 512#10 := by decide +kernel

theorem pixelLuma_mem (pm : Bool) (r g b al : Byte) : 0 ≤ pixelLuma pm r g b al ∧ pixelLuma pm r g b al ≤ 1 :=
  lumaOf_mem (colourSample_mem pm r al) (colourSample_mem pm g al) (colourSample_mem pm b al)

theorem abs_groupCb_le (pm : Bool) (p : RGBA) : |groupCb pm p| ≤ 1 / 2 :=
  abs_chromaOf_cb_le (colourSample_mem pm p.r1 p.a1) (colourSample_mem pm p.g1 p.a1) (colourSample_mem pm p.b1 p.a1)

theorem abs_groupCr_le (pm : Bool) (p : RGBA) : |groupCr pm p| ≤ 1 / 2 :=
  abs_chromaOf_cr_le (colourSample_mem pm p.r1 p.a1) (colourSample_mem pm p.g1 p.a1) (colourSample_mem pm p.b1 p.a1)

/-- Both chroma values read pixel 1 alone (R158). -/
theorem groupChroma_congr {p q : RGBA} (hr : p.r1 = q.r1) (hg : p.g1 = q.g1) (hb : p.b1 = q.b1) (ha : p.a1 = q.a1)
    (pm : Bool) : groupCb pm p = groupCb pm q ∧ groupCr pm p = groupCr pm q := by
  simp only [groupCb, groupCr, hr, hg, hb, ha, and_self]

/-- Pure blue has the largest blue difference. -/
theorem groupCb_pureBlue {pm : Bool} {p : RGBA} (h : pm = false ∨ p.a1 = 255#8) (hr : p.r1 = 0#8) (hg : p.g1 = 0#8)
    (hb : p.b1 = 255#8) : groupCb pm p = 1 / 2 := by
  simp only [groupCb, pixelLuma, colourSample_unscaled h, hr, hg, hb, normalise_zero, normalise_max, chromaOf, lumaOf, kb,
    cbDiv]
  norm_num

/-- Pure red has the largest red difference. -/
theorem groupCr_pureRed {pm : Bool} {p : RGBA} (h : pm = false ∨ p.a1 = 255#8) (hr : p.r1 = 255#8) (hg : p.g1 = 0#8)
    (hb : p.b1 = 0#8) : groupCr pm p = 1 / 2 := by
  simp only [groupCr, pixelLuma, colourSample_unscaled h, hr, hg, hb, normalise_zero, normalise_max, chromaOf, lumaOf, kr,
    crDiv]
  norm_num

/-- Settles O31: alpha 255 scales every sample by 1 and alpha 0 by 0; the rest is which fields a code is made of. -/
theorem premultiplyByOwnAlpha : Obligations.PremultiplyByOwnAlpha := by
  refine ⟨fun v al => ⟨rfl, rfl⟩, fun p h0 h1 => ?_, fun p h0 => ?_, fun p h1 => ⟨?_, ?_, ?_⟩,
    fun p al => ⟨rfl, rfl⟩, fun p => ⟨rfl, rfl⟩⟩
  · simp only [encodePixels, groupCb, groupCr, h0, h1, pixelLuma_opaque, colourSample_opaque]
  · rw [encodePixels, h0, pixelLuma_transparent, lumaCode_zero]
  · rw [encodePixels, h1, pixelLuma_transparent, lumaCode_zero]
  · rw [encodePixels, groupCb_transparent h1, chromaCode_zero]
  · rw [encodePixels, groupCr_transparent h1, chromaCode_zero]

/-- Settles O32: the formulas are the definitions'; the divisors bound the differences, which pure blue and pure red
reach. -/
theorem chromaFromSecondPixelOnly : Obligations.ChromaFromSecondPixelOnly := by
  refine ⟨fun pm p => ?_, fun pm p q hr hg hb ha => ?_,
    fun pm p h => ⟨fun hr hg hb => groupCb_pureBlue h hr hg hb, fun hr hg hb => groupCr_pureRed h hr hg hb⟩⟩
  · obtain ⟨hcb, hcb'⟩ := abs_le.1 (abs_groupCb_le pm p)
    obtain ⟨hcr, hcr'⟩ := abs_le.1 (abs_groupCr_le pm p)
    rw [← neg_div] at hcb hcr
    exact ⟨rfl, rfl, hcb, hcb', hcr, hcr'⟩
  · obtain ⟨hcb, hcr⟩ := groupChroma_congr hr hg hb ha pm
    exact ⟨congrArg chromaCode hcb, congrArg chromaCode hcr⟩

/-! ### The clamps (R165) -/

theorem rhaz_luma_mem {yq : Rat} (h : 0 ≤ yq ∧ yq ≤ 1) : 0 ≤ rhaz (yq * 876) ∧ rhaz (yq * 876) ≤ 876 :=
  rhaz_mem (by push_cast; linarith [h.1]) (by push_cast; linarith [h.2])

theorem rhaz_chroma_mem {c : Rat} (h : |c| ≤ 1 / 2) : -448 ≤ rhaz (c * 896) ∧ rhaz (c * 896) ≤ 448 := by
  obtain ⟨h0, h1⟩ := abs_le.1 h
  exact rhaz_mem (by push_cast; linarith) (by push_cast; linarith)

theorem lumaPreClamp_mem {yq : Rat} (h : 0 ≤ yq ∧ yq ≤ 1) : 64 ≤ lumaPreClamp yq ∧ lumaPreClamp yq ≤ 940 := by
  obtain ⟨hlo, hhi⟩ := rhaz_luma_mem h
  simp only [lumaPreClamp, lumaScale, lumaBase]
  omega

theorem chromaPreClamp_mem {c : Rat} (h : |c| ≤ 1 / 2) : 64 ≤ chromaPreClamp c ∧ chromaPreClamp c ≤ 960 := by
  obtain ⟨hlo, hhi⟩ := rhaz_chroma_mem h
  simp only [chromaPreClamp, chromaScale, chromaBase]
  omega

theorem clampInt_of_lt {v lo hi : Int} (h : v < lo) : clampInt v lo hi = lo :=
  max_eq_left ((min_le_right hi v).trans h.le)

theorem clampInt_of_gt {v lo hi : Int} (hle : lo ≤ hi) (h : hi < v) : clampInt v lo hi = hi := by
  rw [clampInt, min_eq_left h.le, max_eq_right hle]

theorem lumaCode_of_lt {yq : Rat} (h : lumaPreClamp yq < 64) : lumaCode yq = 64#10 := by
  rw [lumaCode, clampInt_of_lt (lo := lumaMin) h]
  rfl

theorem lumaCode_of_gt {yq : Rat} (h : 940 < lumaPreClamp yq) : lumaCode yq = 940#10 := by
  rw [lumaCode, clampInt_of_gt (hi := lumaMax) (by decide) h]
  rfl

/-- Settles O28: luma lies on [0, 1] and chroma on [-1/2, 1/2], and rounding does not leave the scaled intervals. -/
theorem encodeClampsNeverBind : Obligations.EncodeClampsNeverBind := by
  refine ⟨fun pm p r g b al => ?_, fun yq => ⟨lumaCode_of_lt, lumaCode_of_gt⟩⟩
  have hy := pixelLuma_mem pm r g b al
  have hcb := abs_groupCb_le pm p
  have hcr := abs_groupCr_le pm p
  exact ⟨rhaz_luma_mem hy, lumaPreClamp_mem hy, rhaz_chroma_mem hcb, rhaz_chroma_mem hcr, chromaPreClamp_mem hcb,
    chromaPreClamp_mem hcr, lumaCode_toNat hy.1 hy.2, chromaCode_toNat hcb, chromaCode_toNat hcr⟩

/-! ### The values as fractions (R164) -/

/-- N of R164: a pixel's luma before any scaling, in units of 1/2550000. -/
def lumaNumerator (r g b : Byte) : Int := 2126 * (r.toNat : Int) + 7152 * (g.toNat : Int) + 722 * (b.toNat : Int)

theorem lumaNumerator_mem (r g b : Byte) : 0 ≤ lumaNumerator r g b ∧ lumaNumerator r g b ≤ 2550000 := by
  have := r.isLt
  have := g.isLt
  have := b.isLt
  rw [lumaNumerator]
  omega

theorem pixelLuma_eq_div (r g b al : Byte) : pixelLuma false r g b al = (lumaNumerator r g b : Rat) / 2550000 := by
  simp only [pixelLuma, colourSample_straight, lumaOf, normalise, sampleMax, kr, kg, kb, lumaNumerator]
  push_cast
  ring

/-- Premultiplication scales a pixel's luma as a whole. -/
theorem pixelLuma_premultiplied (r g b al : Byte) :
    pixelLuma true r g b al = pixelLuma false r g b al * normalise al := by
  simp only [pixelLuma, colourSample_premultiplied, colourSample_straight, lumaOf]
  ring

/-- Premultiplication scales the colour differences of a group as a whole. -/
theorem groupChroma_premultiplied (p : RGBA) :
    groupCb true p = groupCb false p * normalise p.a1 ∧ groupCr true p = groupCr false p * normalise p.a1 := by
  simp only [groupCb, groupCr, chromaOf, pixelLuma_premultiplied, colourSample_premultiplied, colourSample_straight]
  constructor <;> ring

theorem groupCb_eq_div (p : RGBA) :
    groupCb false p * 896 =
      ((224 * (10000 * (p.b1.toNat : Int) - lumaNumerator p.r1 p.g1 p.b1) : Int) : Rat) / 1182945 := by
  simp only [groupCb, chromaOf, pixelLuma_eq_div, colourSample_straight, normalise, sampleMax, cbDiv]
  push_cast
  ring

theorem groupCr_eq_div (p : RGBA) :
    groupCr false p * 896 =
      ((224 * (10000 * (p.r1.toNat : Int) - lumaNumerator p.r1 p.g1 p.b1) : Int) : Rat) / 1003935 := by
  simp only [groupCr, chromaOf, pixelLuma_eq_div, colourSample_straight, normalise, sampleMax, crDiv]
  push_cast
  ring

/-- One half more than a fraction, rounded down, on integers alone. -/
theorem floor_div_add_half (n : Int) {d : Nat} (hd : 0 < d) :
    ((n : Rat) / d + 1 / 2).floor = (2 * n + d) / (2 * d) := by
  have hd' : (d : Rat) ≠ 0 := by exact_mod_cast hd.ne'
  have hq : (n : Rat) / d + 1 / 2 = ((2 * n + d : Int) : Rat) / ((2 * d : Nat) : Rat) := by
    push_cast
    field_simp
  rw [hq]
  exact_mod_cast Rat.floor_intCast_div_natCast (2 * n + d) (2 * d)

/-- rhaz of a fraction, on integers alone: the magnitude is rounded and the sign kept. -/
theorem rhaz_div (n : Int) {d : Nat} (hd : 0 < d) :
    rhaz ((n : Rat) / d) = if 0 ≤ n then (2 * n + d) / (2 * d) else -((-2 * n + d) / (2 * d)) := by
  have hsign : 0 ≤ (n : Rat) / d ↔ 0 ≤ n := by
    rw [le_div_iff₀ (by exact_mod_cast hd), zero_mul]
    exact Int.cast_nonneg_iff
  have hneg : -((n : Rat) / d) = ((-n : Int) : Rat) / d := by push_cast; ring
  simp only [rhaz, hsign]
  split
  next => exact floor_div_add_half n hd
  next => rw [hneg, floor_div_add_half (-n) hd, mul_neg, neg_mul]

/-- Settles O27: the fractions for PM = 0 by the constants; those for PM = 1 are these times the alpha over 255. -/
theorem encodeIntegerForm : Obligations.EncodeIntegerForm := by
  refine ⟨fun q r g b al => ?_, fun n d hd => ?_⟩
  · intro n p
    obtain ⟨h0, h1⟩ := lumaNumerator_mem r g b
    have hcb : groupCb false p * 896 = ((224 * (10000 * (b.toNat : Int) - n) : Int) : Rat) / 1182945 := groupCb_eq_div p
    have hcr : groupCr false p * 896 = ((224 * (10000 * (r.toNat : Int) - n) : Int) : Rat) / 1003935 := groupCr_eq_div p
    have hy : pixelLuma false r g b al = (n : Rat) / 2550000 := pixelLuma_eq_div r g b al
    obtain ⟨hcb', hcr'⟩ := groupChroma_premultiplied p
    refine ⟨h0, h1, ?_, hcb, hcr, ?_, ?_, ?_⟩
    · rw [hy]
      push_cast
      ring
    · rw [pixelLuma_premultiplied, hy, normalise, sampleMax]
      push_cast
      ring
    · rw [hcb', mul_right_comm, hcb, normalise, sampleMax]
      push_cast
      ring
    · rw [hcr', mul_right_comm, hcr, normalise, sampleMax]
      push_cast
      ring
  · lift d to Nat using hd.le
    exact_mod_cast rhaz_div n (by exact_mod_cast hd)

end Sys2Proof.Machine
end

section
/-!
ENCODE_FRAME's output as bytes (41_encode_rgba_to_ycbcra.md R161, R162): the alpha field, the packing, and why COMPRESS_RLE
takes every such output (R167).
-/

namespace Sys2Proof.Machine

/-! ### The alpha field (R161) -/

theorem alphaCode_toNat (al : Byte) : (alphaCode al).toNat = al.toNat * 876 / 255 + 61 := by
  have := al.isLt
  simp only [alphaCode, alphaEncMul, alphaEncDiv, alphaEncBase, BitVec.toNat_ofNat]
  omega

theorem alphaCode_mem (al : Byte) : 61 ≤ (alphaCode al).toNat ∧ (alphaCode al).toNat ≤ 937 := by
  have := al.isLt
  rw [alphaCode_toNat]
  omega

theorem alphaCode_topBits (al : Byte) : (alphaCode al).extractLsb' 10 2 = 0#2 := by
  have := (alphaCode_mem al).2
  apply BitVec.eq_of_toNat_eq
  rw [toNat_extractLsb'_top _ rfl, BitVec.toNat_ofNat]
  omega

/-- Settles O29: the field's value, range and top bits for each pixel's alpha; PM plays no part in it. -/
theorem encodeAlphaField : Obligations.EncodeAlphaField := by
  refine ⟨fun pm p => ?_, by decide⟩
  obtain ⟨hlo0, hhi0⟩ := alphaCode_mem p.a0
  obtain ⟨hlo1, hhi1⟩ := alphaCode_mem p.a1
  exact ⟨alphaCode_toNat p.a0, alphaCode_toNat p.a1, hlo0, hhi0, alphaCode_topBits p.a0, hlo1, hhi1,
    alphaCode_topBits p.a1⟩

/-! ### The packing (R162) -/

/-- Fields that straddle a byte boundary, as a sum. -/
theorem toNat_bottom_append_top_eq_add {v w lo n : Nat} (x : BitVec v) (m : Nat) (y : BitVec w) (h : lo + n = w) :
    (x.extractLsb' 0 m ++ y.extractLsb' lo n).toNat = (x.toNat % 2 ^ m) * 2 ^ n + y.toNat / 2 ^ lo := by
  rw [toNat_append_eq_add, toNat_extractLsb'_bottom, toNat_extractLsb'_top y h]

/-- What a reader of the layout recovers for pixel 0's luma: its own low byte under pixel 1's top bits. -/
theorem unpackYCbCrA_packEncoded_y0 (f : YCbCrA) :
    (unpackYCbCrA (packEncoded f)).y0.toNat = (f.y1.toNat / 256) * 256 + f.y0.toNat % 256 := by
  have h : (unpackYCbCrA (packEncoded f)).y0 = f.y1.extractLsb' 8 2 ++ f.y0.extractLsb' 0 8 := by
    simp only [unpackYCbCrA, packEncoded, BitVec.extractLsb'_append_eq_right]
  rw [h, toNat_append_eq_add, toNat_extractLsb'_top _ rfl, toNat_extractLsb'_bottom]
  rfl

/-- Settles O26: each byte is a field's part or two parts side by side; a reader finds pixel 0's luma when pixel 1's top
bits are its own. -/
theorem encodedPacking : Obligations.EncodedPacking := by
  intro f
  refine ⟨toNat_extractLsb'_top f.a0 rfl, toNat_bottom_append_top_eq_add f.a0 4 f.cb rfl,
    toNat_bottom_append_top_eq_add f.cb 6 f.y1 rfl, toNat_extractLsb'_bottom f.y0 8, toNat_extractLsb'_top f.a1 rfl,
    toNat_bottom_append_top_eq_add f.a1 4 f.cr rfl, toNat_bottom_append_top_eq_add f.cr 6 f.y1 rfl,
    toNat_extractLsb'_bottom f.y1 8, unpackYCbCrA_packEncoded_y0 f, ?_, ?_⟩
  · rw [← BitVec.toNat_inj, unpackYCbCrA_packEncoded_y0]
    omega
  · have h := congrArg BitVec.toNat (packEncoded_topBits_eq f)
    rwa [toNat_extractLsb'_bottom, toNat_extractLsb'_bottom] at h

/-! ### An encoded frame holds no sentinel (R167) -/

/-- The first byte of an encoded group is the top of pixel 0's alpha field. -/
theorem encodeGroup_b0_mem (pm : Bool) (g : Group) :
    0x03 ≤ (encodeGroup pm g).b0.toNat ∧ (encodeGroup pm g).b0.toNat ≤ 0x3A := by
  obtain ⟨hlo, hhi⟩ := alphaCode_mem g.b3
  have h : (encodeGroup pm g).b0.toNat = (alphaCode g.b3).toNat / 2 ^ 4 := toNat_extractLsb'_top (alphaCode g.b3) rfl
  omega

/-- The sentinel starts with FE. -/
theorem State.readBlock_ne_sentinel {s : State} {g : Nat} (h : s.readIn (8 * g) ≠ 0xFE#8) :
    s.readBlock g ≠ sentinel := by
  intro hs
  have hbytes : (s.readGroup g).bytes = List.replicate 8 0xFE#8 := by
    rw [← State.blockBytes_readBlock, hs, blockBytes_sentinel]
  exact h (List.cons.inj hbytes).1

/-- A success of ENCODE_FRAME: a whole number of groups, OUT_LEN = LEN, and each group of OUT is the encoded input
group. -/
theorem encodeFrame_of_ok {pm : Bool} {s t : State} (he : exec (.encodeFrame pm) s = .next t) (hok : t.status = statusOk) :
    s.len.toNat % 8 = 0 ∧ t.outLen = s.len ∧ ∀ off, off < s.len.toNat →
      t.hostReadOut off = (encodeGroup pm (s.readGroup (off / 8))).bytes[off % 8]? := by
  rcases execEncodeFrame_cases pm s with ⟨-, h⟩ | ⟨-, -, h⟩ | ⟨h8, -, m, h, hread, -⟩ <;>
    obtain rfl := Host.Outcome.next.inj (h.symm.trans he)
  · exact absurd hok (State.raise_status_ne_ok _ _)
  · exact absurd hok (State.raise_status_ne_ok _ _)
  · refine ⟨h8, rfl, fun off hoff => ?_⟩
    have hall := State.eight_mul_groupCount h8
    rw [State.hostReadOut_of_lt hoff]
    exact (hread off).trans (if_pos (by omega))

/-- COMPRESS_RLE succeeds on every whole number of blocks without a sentinel, given the grant. -/
theorem compressRle_ok {s : State} (h8 : s.len.toNat % 8 = 0) (ha : s.allocOk = true) (hs : s.hasSentinel = false) :
    ∃ u, exec .compressRle s = .next u ∧ u.status = statusOk := by
  rcases execCompressRle_cases s with ⟨h, -⟩ | ⟨-, h, -⟩ | ⟨-, -, h, -⟩ | ⟨-, -, -, p, c, w, he, -⟩
  · exact absurd h8 h
  · cases ha.symm.trans h
  · cases hs.symm.trans h
  · exact ⟨_, he, rfl⟩

/-- The input COMPRESS_RLE finds after the host's copy of an encoded frame. -/
theorem hasSentinel_copyOutToIn_of_encodeFrame {pm : Bool} {s t : State} (he : exec (.encodeFrame pm) s = .next t)
    (hok : t.status = statusOk) : t.copyOutToIn.hasSentinel = false := by
  obtain ⟨h8, hlen, hread⟩ := encodeFrame_of_ok he hok
  rw [Bool.eq_false_iff, Ne, State.hasSentinel_iff]
  rintro ⟨g, hg, hs⟩
  have hoff : 8 * g < s.len.toNat := by
    rw [← hlen]
    exact State.groupOffset_lt_len (s := t.copyOutToIn) hg (by decide : 0 < 8)
  have hbyte : t.hostReadOut (8 * g) = some (encodeGroup pm (s.readGroup g)).b0 := by
    rw [hread _ hoff, Nat.mul_div_cancel_left g (by decide), Nat.mul_mod_right]
    rfl
  refine State.readBlock_ne_sentinel ?_ hs
  rw [State.copyOutToIn_readIn hbyte]
  intro h
  have hmax := (encodeGroup_b0_mem pm (s.readGroup g)).2
  rw [h] at hmax
  exact absurd hmax (by decide)

/-- Settles O33: the copy is a whole number of groups and none of their first bytes is the sentinel's. -/
theorem encodedFrameCompresses : Obligations.EncodedFrameCompresses := by
  refine ⟨encodeGroup_b0_mem, fun pm s t he hok => ?_⟩
  obtain ⟨h8, hlen, -⟩ := encodeFrame_of_ok he hok
  have h8' : t.outLen.toNat % 8 = 0 := by rwa [hlen]
  exact compressRle_ok (s := t.copyOutToIn.hostMove (.drawAlloc true)) h8' rfl
    (hasSentinel_copyOutToIn_of_encodeFrame he hok)

end Sys2Proof.Machine
end

section
/-!
COMPRESS_RLE as its reader sees it (42_rle_compress.md section 4): one scan step and the flush (R185 to R187), the output
read back (R194), its size (R192), and what compressing it again does (R195).
-/

namespace Sys2Proof.Machine

/-! ### The flush and a scan step (R185 to R187) -/

@[simp] theorem State.emitAll_scan (s : State) (bs : List Block) : (s.emitAll bs).scan = s.scan := by
  induction bs generalizing s with
  | nil => rfl
  | cons b bs ih => exact ih (s.emitBlock b)

@[simp] theorem State.flush_scan (s : State) : s.flush.scan = s.scan := by
  rw [State.flush_eq_emitAll, State.emitAll_scan]

/-- A run of 3 or more contributes a run-record. -/
theorem runBlocks_of_three_le {r : Block × Nat} (h : 3 ≤ r.2) : runBlocks r = [sentinel, BitVec.ofNat 64 r.2, r.1] :=
  if_pos h

/-- A shorter run contributes its own blocks. -/
theorem runBlocks_of_lt {r : Block × Nat} (h : r.2 < 3) : runBlocks r = List.replicate r.2 r.1 :=
  if_neg (Nat.not_le.2 h)

/-- The bytes of a run-record: the sentinel, the big-endian count and the payload. -/
theorem blocksBytes_runBlocks_of_three_le {v : Block} {n : Nat} (h : 3 ≤ n) (hn : n < 2 ^ 64) :
    blocksBytes (runBlocks (v, n)) = List.replicate 8 0xFE#8 ++ beBytes 8 n ++ blockBytes v := by
  have hcount : blockBytes (BitVec.ofNat 64 n) = beBytes 8 n := by
    rw [blockBytes, BitVec.toNat_ofNat, Nat.mod_eq_of_lt hn]
  rw [runBlocks_of_three_le h]
  simp [hcount, blockBytes_sentinel]

/-- Settles O37: the flush writes what the pending run contributes, in the three lengths of a contribution. -/
theorem rleFlush : Obligations.RleFlush := by
  intro s hw
  have hfl := s.flush_eq hw
  refine ⟨fun h => ?_, fun h => ?_, fun h => ?_, fun h => ?_⟩
  · rw [hfl, blocksBytes_runBlocks_of_three_le h s.count.isLt, Nat.min_eq_right h]
    rfl
  · rw [hfl, h]
    rfl
  · rw [hfl, h]
    rfl
  · rw [s.flush_eq_emitAll, h]
    rfl

/-- Settles O36: the two ways of taking a block. -/
theorem rleScanStep : Obligations.RleScanStep := by
  intro s
  rcases s.takeBlock_cases (s.readBlock s.scan) with ⟨hcount, hprev, ht⟩ | ⟨hnew, ht⟩
  · refine ⟨fun _ _ => congrArg State.advance ht, fun hnew => ?_⟩
    rcases hnew with h0 | hne
    · omega
    · exact absurd hprev hne
  · refine ⟨fun hcount hprev => ?_, fun _ => ?_⟩
    · rcases hnew with h0 | hne
      · omega
      · exact absurd hprev hne
    · rw [rleStep, ht]
      exact ⟨rfl, rfl, congrArg (· + 1) s.flush_scan, rfl, rfl⟩

/-! ### The maximal runs of a sequence -/

/-- A block in front of a sequence lengthens the first run or starts one of its own. -/
theorem maximalRuns_cons_cases (b : Block) (bs : List Block) :
    (∃ n rs, maximalRuns bs = (b, n) :: rs ∧ maximalRuns (b :: bs) = (b, n + 1) :: rs) ∨
      maximalRuns (b :: bs) = (b, 1) :: maximalRuns bs := by
  rcases hruns : maximalRuns bs with - | ⟨⟨v, n⟩, rs⟩
  · exact .inr (by rw [maximalRuns, hruns])
  · by_cases hb : b = v
    · subst hb
      exact .inl ⟨n, rs, rfl, maximalRuns_cons_same hruns⟩
    · exact .inr (by simp only [maximalRuns, hruns, if_neg hb])

/-- The maximal runs multiply out to the sequence. -/
theorem expandRuns_maximalRuns (bs : List Block) : expandRuns (maximalRuns bs) = bs := by
  induction bs with
  | nil => rfl
  | cons b bs ih =>
    rcases maximalRuns_cons_cases b bs with ⟨n, rs, hbs, h⟩ | h
    · rw [hbs, expandRuns_cons] at ih
      rw [h, expandRuns_cons, List.replicate_succ, List.cons_append, ih]
    · rw [h, expandRuns_cons, ih]
      rfl

theorem one_le_of_mem_maximalRuns {bs : List Block} {r : Block × Nat} (h : r ∈ maximalRuns bs) : 1 ≤ r.2 := by
  induction bs generalizing r with
  | nil => cases h
  | cons b bs ih =>
    rcases maximalRuns_cons_cases b bs with ⟨n, rs, hbs, hcons⟩ | hcons <;> rw [hcons] at h <;>
      rcases List.mem_cons.1 h with rfl | hr
    · exact Nat.le_add_left 1 n
    · exact ih (hbs ▸ List.mem_cons_of_mem _ hr)
    · exact Nat.le_refl 1
    · exact ih hr

/-- A run's blocks stand side by side in what the runs multiply out to. -/
theorem replicate_sublist_expandRuns {rs : List (Block × Nat)} {r : Block × Nat} (h : r ∈ rs) :
    (List.replicate r.2 r.1).Sublist (expandRuns rs) :=
  List.sublist_flatten_of_mem (List.mem_map_of_mem h)

/-- A maximal run is a run of a block of the sequence, and no longer than the sequence. -/
theorem mem_and_le_of_mem_maximalRuns {bs : List Block} {r : Block × Nat} (h : r ∈ maximalRuns bs) :
    r.1 ∈ bs ∧ r.2 ≤ bs.length := by
  have hsub := replicate_sublist_expandRuns h
  rw [expandRuns_maximalRuns] at hsub
  refine ⟨hsub.subset (List.mem_replicate.2 ⟨?_, rfl⟩), by simpa using hsub.length_le⟩
  have := one_le_of_mem_maximalRuns h
  omega

/-! ### A success of COMPRESS_RLE -/

@[simp] theorem State.inBlocks_length (s : State) : s.inBlocks.length = s.groupCount := by
  rw [State.inBlocks_eq, State.firstBlocks_length]

theorem State.hasSentinel_iff_mem (s : State) : s.hasSentinel = true ↔ sentinel ∈ s.inBlocks := by
  simp [State.hasSentinel_eq_any_inBlocks]

/-- A success of COMPRESS_RLE: whole blocks without a sentinel, and the valid bytes of OUT are the closed form (R191). -/
theorem compressRle_of_ok {s t : State} (he : exec .compressRle s = .next t) (hok : t.status = statusOk) :
    s.len.toNat % 8 = 0 ∧ sentinel ∉ s.inBlocks ∧ t.outLen.toNat = 8 * (rleClosedForm s.inBlocks).length ∧
      t.outBytes = (blocksBytes (rleClosedForm s.inBlocks)).map some := by
  rcases execCompressRle_cases s with ⟨-, h⟩ | ⟨-, -, h⟩ | ⟨-, -, -, h⟩ | ⟨h8, -, hs, p, c, w, h, hw, -⟩ <;>
    obtain rfl := Host.Outcome.next.inj (h.symm.trans he)
  · exact absurd hok (State.raise_status_ne_ok _ _)
  · exact absurd hok (State.raise_status_ne_ok _ _)
  · exact absurd hok (State.raise_status_ne_ok _ _)
  · refine ⟨h8, ?_, hw, State.outBytes_of_writeBytes rfl (hw.trans (blocksBytes_length _).symm)⟩
    rw [← State.hasSentinel_iff_mem, hs]
    exact Bool.false_ne_true

/-- An input of whole blocks with a sentinel among them ends in FormatViolation, given the grant (R183). -/
theorem compressRle_formatViolation {s : State} (h8 : s.len.toNat % 8 = 0) (ha : s.allocOk = true)
    (hs : sentinel ∈ s.inBlocks) : exec .compressRle s = .next (s.nextDraw.raise .formatViolation) := by
  have hsent := s.hasSentinel_iff_mem.2 hs
  rcases execCompressRle_cases s with ⟨h, -⟩ | ⟨-, h, -⟩ | ⟨-, -, -, he⟩ | ⟨-, -, h, -⟩
  · exact absurd h8 h
  · cases ha.symm.trans h
  · exact he
  · cases hsent.symm.trans h

/-! ### The output read back (R194) -/

/-- A literal that is not the sentinel, any number of times, stands for itself. -/
theorem expand_replicate_append {v : Block} (hv : v ≠ sentinel) (n : Nat) (rest : List Block) :
    expand (List.replicate n v ++ rest) = (expand rest).map (List.replicate n v ++ ·) := by
  induction n with
  | zero => simp
  | succ n ih => simp [List.replicate_succ, expand_literal hv, ih, Function.comp_def]

/-- What a run contributes is read as the run. -/
theorem expand_runBlocks_append {r : Block × Nat} (hv : r.1 ≠ sentinel) (hn : r.2 < 2 ^ 64) (rest : List Block) :
    expand (runBlocks r ++ rest) = (expand rest).map (List.replicate r.2 r.1 ++ ·) := by
  rcases Nat.lt_or_ge r.2 3 with h | h
  · rw [runBlocks_of_lt h, expand_replicate_append hv]
  · have hcount : (BitVec.ofNat 64 r.2).toNat = r.2 := by rw [BitVec.toNat_ofNat, Nat.mod_eq_of_lt hn]
    rw [runBlocks_of_three_le h]
    simp only [List.cons_append, List.nil_append, expand_run, hcount]

theorem expand_flatMap_runBlocks {rs : List (Block × Nat)} (h : ∀ r ∈ rs, r.1 ≠ sentinel ∧ r.2 < 2 ^ 64) :
    expand (rs.flatMap runBlocks) = some (expandRuns rs) := by
  induction rs with
  | nil => rfl
  | cons r rs ih =>
    obtain ⟨⟨hv, hn⟩, hrs⟩ := List.forall_mem_cons.1 h
    rw [List.flatMap_cons, expand_runBlocks_append hv hn, ih hrs]
    rfl

/-- The closed form of a sequence without a sentinel is read as the sequence. -/
theorem expand_rleClosedForm {bs : List Block} (hs : sentinel ∉ bs) (hlen : bs.length < 2 ^ 64) :
    expand (rleClosedForm bs) = some bs := by
  have hruns : ∀ r ∈ maximalRuns bs, r.1 ≠ sentinel ∧ r.2 < 2 ^ 64 := fun r hr => by
    obtain ⟨hmem, hle⟩ := mem_and_le_of_mem_maximalRuns hr
    exact ⟨fun h => hs (h ▸ hmem), by omega⟩
  rw [rleClosedForm, expand_flatMap_runBlocks hruns, expandRuns_maximalRuns]

/-- Settles O41: the closed form is the stream. -/
theorem compressLossless : Obligations.CompressLossless := by
  intro s t he hok
  obtain ⟨-, hs, -, hout⟩ := compressRle_of_ok he hok
  have hlen := s.groupCount_lt
  exact ⟨_, hout, expand_rleClosedForm hs (by rw [State.inBlocks_length]; omega)⟩

/-! ### The size of the output (R192) -/

theorem rleClosedForm_length (bs : List Block) :
    (rleClosedForm bs).length = ((maximalRuns bs).map fun r => min r.2 3).sum := by
  rw [rleClosedForm, List.length_flatMap]
  exact congrArg List.sum (List.map_congr_left fun r _ => runBlocks_length r.1 r.2)

/-- Runs contribute as much as they multiply out to exactly when none is longer than 3. -/
theorem runBlocks_flatMap_length_eq_iff (rs : List (Block × Nat)) :
    (rs.flatMap runBlocks).length = (expandRuns rs).length ↔ ∀ r ∈ rs, r.2 ≤ 3 := by
  induction rs with
  | nil => simp
  | cons r rs ih =>
    have hle := runBlocks_flatMap_length_le rs
    have hr : (runBlocks r).length = min r.2 3 := runBlocks_length r.1 r.2
    rw [List.forall_mem_cons, ← ih, List.flatMap_cons, expandRuns_cons, List.length_append, List.length_append,
      List.length_replicate]
    omega

theorem rleClosedForm_length_eq_iff (bs : List Block) :
    (rleClosedForm bs).length = bs.length ↔ ∀ r ∈ maximalRuns bs, r.2 ≤ 3 := by
  rw [← runBlocks_flatMap_length_eq_iff, expandRuns_maximalRuns, rleClosedForm]

theorem rleClosedForm_length_le (bs : List Block) : (rleClosedForm bs).length ≤ bs.length := by
  have h := runBlocks_flatMap_length_le (maximalRuns bs)
  rwa [expandRuns_maximalRuns] at h

/-- Settles O42: OUT_LEN and LEN are eight times the lengths of the closed form and of the block sequence. -/
theorem compressSize : Obligations.CompressSize := by
  intro s t he hok
  obtain ⟨h8, -, hlen, -⟩ := compressRle_of_ok he hok
  have hin : s.len.toNat = 8 * s.inBlocks.length := by rw [State.inBlocks_length, State.eight_mul_groupCount h8]
  have hle := rleClosedForm_length_le s.inBlocks
  refine ⟨by rw [hlen, rleClosedForm_length], by omega, by omega, ?_, fun v n hrun hn => ?_⟩
  · rw [← rleClosedForm_length_eq_iff, ← BitVec.toNat_inj]
    omega
  · rw [rleClosedForm_length, hrun] at hlen
    apply BitVec.eq_of_toNat_eq
    simpa [Nat.min_eq_right hn] using hlen

/-! ### The blocks the copy brings to IN (70_reset_and_hazards.md R249) -/

/-- Byte k of block g. -/
theorem blocksBytes_getElem? {k : Nat} (hk : k < 8) (bs : List Block) (g : Nat) :
    (blocksBytes bs)[8 * g + k]? = bs[g]?.bind fun b => (blockBytes b)[k]? := by
  induction bs generalizing g with
  | nil => simp
  | cons b bs ih =>
    rw [blocksBytes_cons]
    cases g with
    | zero =>
      rw [Nat.mul_zero, Nat.zero_add, List.getElem?_append_left (by rwa [blockBytes_length])]
      rfl
    | succ g =>
      rw [List.getElem?_append_right (by rw [blockBytes_length]; omega), blockBytes_length,
        show 8 * (g + 1) + k - 8 = 8 * g + k by omega, ih]
      rfl

theorem blocksBytes_injective : Function.Injective blocksBytes := by
  intro bs
  induction bs with
  | nil =>
    intro cs h
    have hlen := congrArg List.length h
    rw [blocksBytes_length, blocksBytes_length] at hlen
    exact (List.length_eq_zero_iff.1 (by simpa using hlen.symm)).symm
  | cons b bs ih =>
    rintro (- | ⟨c, cs⟩) h
    · simpa using congrArg List.length h
    · obtain ⟨hb, hbs⟩ := List.append_inj h (by rw [blockBytes_length, blockBytes_length])
      rw [blockBytes_injective hb, ih hbs]

section Copied

variable {t : State} {bl : List Block}

theorem State.outLen_of_outBytes (h : t.outBytes = (blocksBytes bl).map some) : t.outLen.toNat = 8 * bl.length := by
  rw [← State.outBytes_length, h, List.length_map, blocksBytes_length]

/-- The host reads byte k of block g where the stream has it. -/
theorem State.hostReadOut_of_outBytes (h : t.outBytes = (blocksBytes bl).map some) {g k : Nat} (hg : g < bl.length)
    (hk : k < 8) : t.hostReadOut (8 * g + k) = (blockBytes bl[g])[k]? := by
  have hlt : 8 * g + k < t.outLen.toNat := by rw [State.outLen_of_outBytes h]; omega
  have hk' : k < (blockBytes bl[g]).length := by rwa [blockBytes_length]
  have hread := congrArg (·[8 * g + k]?) h
  simp only [State.outBytes, List.getElem?_map, List.getElem?_range hlt, blocksBytes_getElem? hk,
    List.getElem?_eq_getElem hg, List.getElem?_eq_getElem hk', Option.map_some, Option.bind_some,
    Option.some.injEq] at hread
  rw [hread, List.getElem?_eq_getElem hk']

/-- The copied stream is the next operation's block sequence. -/
theorem State.copyOutToIn_inBlocks (h : t.outBytes = (blocksBytes bl).map some) : t.copyOutToIn.inBlocks = bl := by
  have hcount : t.copyOutToIn.groupCount = bl.length := by
    rw [State.groupCount, State.copyOutToIn_len, State.outLen_of_outBytes h]
    exact Nat.mul_div_cancel_left _ (by decide)
  refine List.ext_getElem (by rw [State.inBlocks_length, hcount]) fun g hg hg' => ?_
  have hblock : t.copyOutToIn.readBlock g = bl[g] := blockBytes_injective <| by
    rw [State.blockBytes_readBlock]
    refine List.ext_getElem (by simp) fun k hk hk' => ?_
    have hread := State.hostReadOut_of_outBytes h hg' hk
    rw [List.getElem?_eq_getElem hk'] at hread
    simp only [State.readGroup_bytes, List.getElem_map, List.getElem_range, State.copyOutToIn_readIn hread]
  simpa [State.inBlocks] using hblock

end Copied

/-! ### Compressing an output again (R195) -/

/-- Everything a first block can be: the start of a run-record, or a literal. -/
theorem parseStream_cons_cases {b : Block} {rest : List Block} {recs : List Instr}
    (h : parseStream (b :: rest) = some recs) :
    (b = sentinel ∧ ∃ count payload recs', recs = .runRecord count payload :: recs') ∨
      (b ≠ sentinel ∧ ∃ recs', parseStream rest = some recs' ∧ recs = .literalBlock b :: recs') := by
  by_cases hb : b = sentinel
  · subst hb
    refine .inl ⟨rfl, ?_⟩
    match rest with
    | [] | [_] => cases h
    | count :: payload :: rest =>
      rw [parseStream_run, Option.map_eq_some_iff] at h
      obtain ⟨recs', -, rfl⟩ := h
      exact ⟨count, payload, recs', rfl⟩
  · rw [parseStream_literal hb, Option.map_eq_some_iff] at h
    obtain ⟨recs', hrest, rfl⟩ := h
    exact .inr ⟨hb, recs', hrest, rfl⟩

/-- A stream has a run-record exactly when it has a sentinel block. -/
theorem exists_runRecord_iff_sentinel_mem {bl : List Block} {recs : List Instr} (h : parseStream bl = some recs) :
    (∃ count payload, Instr.runRecord count payload ∈ recs) ↔ sentinel ∈ bl := by
  induction bl generalizing recs with
  | nil =>
    cases h
    simp
  | cons b rest ih =>
    rcases parseStream_cons_cases h with ⟨rfl, count, payload, recs', rfl⟩ | ⟨hb, recs', hrest, rfl⟩
    · exact iff_of_true ⟨count, payload, List.mem_cons_self⟩ List.mem_cons_self
    · simpa [Ne.symm hb] using ih hrest

/-- A closed form without a run-record is the sequence itself. -/
theorem rleClosedForm_eq_self {bs : List Block} (h : sentinel ∉ rleClosedForm bs) : rleClosedForm bs = bs := by
  have hshort : ∀ r ∈ maximalRuns bs, runBlocks r = List.replicate r.2 r.1 := fun r hr =>
    runBlocks_of_lt (Nat.lt_of_not_le fun h3 => h (List.mem_flatMap.2 ⟨r, hr, by simp [runBlocks_of_three_le h3]⟩))
  calc rleClosedForm bs = expandRuns (maximalRuns bs) := List.flatMap_congr hshort
    _ = bs := expandRuns_maximalRuns bs

/-- Settles O45: the copied input is the closed form; it holds a sentinel, or it is its own closed form. -/
theorem compressingAnOutputAgain : Obligations.CompressingAnOutputAgain := by
  intro s t bl recs he hok hbl hrecs
  obtain ⟨-, -, -, hout⟩ := compressRle_of_ok he hok
  obtain rfl : bl = rleClosedForm s.inBlocks :=
    blocksBytes_injective (List.map_injective_iff.2 (Option.some_injective _) (hbl.symm.trans hout))
  have hrun := exists_runRecord_iff_sentinel_mem hrecs
  have hin : (t.copyOutToIn.hostMove (.drawAlloc true)).inBlocks = rleClosedForm s.inBlocks :=
    State.copyOutToIn_inBlocks hbl
  have h8 : (t.copyOutToIn.hostMove (.drawAlloc true)).len.toNat % 8 = 0 := by
    change t.outLen.toNat % 8 = 0
    rw [State.outLen_of_outBytes hbl, Nat.mul_mod_right]
  by_cases hs : sentinel ∈ rleClosedForm s.inBlocks
  · exact ⟨_, compressRle_formatViolation h8 rfl (hin ▸ hs), fun _ => ⟨hs, rfl, rfl⟩,
      fun hnone => absurd (hrun.2 hs) (by simpa using hnone)⟩
  · have hsent : (t.copyOutToIn.hostMove (.drawAlloc true)).hasSentinel = false := by
      rwa [Bool.eq_false_iff, Ne, State.hasSentinel_iff_mem, hin]
    obtain ⟨u, hu, huok⟩ := compressRle_ok h8 rfl hsent
    obtain ⟨-, -, -, huout⟩ := compressRle_of_ok hu huok
    refine ⟨u, hu, fun hsome => absurd (hrun.1 hsome) hs, fun _ => ⟨huok, ?_⟩⟩
    rw [huout, hin, hout, rleClosedForm_eq_self hs, rleClosedForm_eq_self hs]

end Sys2Proof.Machine
end

section
/-!
The order of the errors (60_exceptions.md R214, R215): STATUS after an operation as a function of the state it starts in,
and which statuses each operation reaches. The rows that are data have no status: they are no operation (R224).
-/

namespace Sys2Proof

/-- A command byte is read as a row of the command register: a reserved one, or one of the four the opcode map defines. -/
theorem decodeCmd_format (c : Byte) : (decodeCmd c).format = .cmd := by
  by_cases h : decodeCmd c = .reservedCmd c
  · exact congrArg Instr.format h
  · obtain ⟨h0, h1, h5, h2⟩ := decodeCmd_defined
    rcases (decodeCmd_ne_reservedCmd_iff c).1 h with rfl | rfl | rfl | rfl
    · exact congrArg Instr.format h0
    · exact congrArg Instr.format h1
    · exact congrArg Instr.format h2
    · exact congrArg Instr.format h5

end Sys2Proof

namespace Sys2Proof.Machine

/-! ### STATUS after an operation -/

/-- STATUS when the operation's own work, done only after both checks of the guard, would end with `own` (R215). -/
def State.guardedStatus (s : State) (own : BitVec 2) : BitVec 2 :=
  if s.len.toNat % 8 ≠ 0 then 1#2 else if s.allocOk = false then 2#2 else own

theorem guarded_status (request : Nat) (body : State → State) (s : State) :
    (guarded request body s).status = s.guardedStatus (body s.nextDraw).status := by
  rcases guarded_cases request body s with ⟨h8, he⟩ | ⟨h8, ha, he⟩ | ⟨h8, ha, he⟩
  · simp [he, State.guardedStatus, h8, statusOf]
  · simp [he, State.guardedStatus, h8, ha, statusOf]
  · simp [he, State.guardedStatus, h8, ha]

/-- COMPRESS_RLE's own work fails on a sentinel and on nothing else (R213). -/
theorem compressBody_status (s : State) : (compressBody s).status = if s.hasSentinel = true then 3#2 else 0#2 := by
  rcases compressBody_cases s with ⟨hs, he⟩ | ⟨hs, p, c, w, he, -⟩
  · rw [he, if_pos hs]
    rfl
  · rw [he, hs]
    rfl

theorem compressRle_status (s : State) : ∃ t, exec .compressRle s = .next t ∧
    t.status = s.guardedStatus (if s.hasSentinel = true then 3#2 else 0#2) :=
  ⟨_, rfl, (guarded_status _ _ s).trans (congrArg s.guardedStatus (compressBody_status s.nextDraw))⟩

/-- A colour operation's own work always succeeds. -/
theorem colourOperation_status {i : Instr} (hi : i = .decodeFrame ∨ i = .encodeFrame false ∨ i = .encodeFrame true)
    (s : State) : ∃ t, exec i s = .next t ∧ t.status = s.guardedStatus 0#2 := by
  rcases hi with rfl | rfl | rfl
  · exact ⟨_, rfl, guarded_status _ decodeBody s⟩
  · exact ⟨_, rfl, guarded_status _ (encodeBody false) s⟩
  · exact ⟨_, rfl, guarded_status _ (encodeBody true) s⟩

/-- An error leaves no output (R216): the second half of O53. -/
theorem no_output_of_error {i : Instr} {s t : State} (he : exec i s = .next t) (herr : t.status ≠ 0#2) :
    t.outLen = 0#64 ∧ t.outBuf = s.outBuf := by
  rcases allOrNothing i s t he with ⟨hok, -⟩ | ⟨-, hnothing⟩
  · exact absurd hok herr
  · exact hnothing

/-! ### The statuses reached -/

/-- The guard never raises FormatViolation. -/
theorem State.guardedStatus_ne_formatViolation (s : State) {own : BitVec 2} (h : own ≠ 3#2) :
    s.guardedStatus own ≠ 3#2 := by
  rw [State.guardedStatus]
  split
  next => decide
  next =>
    split
    next => decide
    next => exact h

/-- An input of one byte, whatever the operation. -/
theorem State.guardedStatus_oddLength (own : BitVec 2) :
    ({ State.reset with len := 1#64 } : State).guardedStatus own = 1#2 := rfl

/-- An empty input and no grant, whatever the operation. -/
theorem State.guardedStatus_noGrant (own : BitVec 2) :
    ({ State.reset with allocOk := false } : State).guardedStatus own = 2#2 := rfl

/-- An input that is one block, the sentinel. -/
theorem sentinel_mem_inBlocks_loadInput : sentinel ∈ (State.reset.loadInput (List.replicate 8 0xFE#8)).inBlocks := by
  decide

/-- An operation with some status in every state, by a rule that the guard decides first, reaches both errors of the
guard. -/
theorem guard_errors_reached {i : Instr} {own : State → BitVec 2}
    (h : ∀ s, ∃ t, exec i s = .next t ∧ t.status = s.guardedStatus (own s)) {k : BitVec 2} (hk : k = 1#2 ∨ k = 2#2) :
    ∃ s t, exec i s = .next t ∧ t.status = k := by
  rcases hk with rfl | rfl
  · obtain ⟨t, he, hst⟩ := h { State.reset with len := 1#64 }
    exact ⟨_, t, he, hst.trans (State.guardedStatus_oddLength _)⟩
  · obtain ⟨t, he, hst⟩ := h { State.reset with allocOk := false }
    exact ⟨_, t, he, hst.trans (State.guardedStatus_noGrant _)⟩

/-! ### The obligations -/

/-- Settles O4: the arms of the data rows, and the formats of what command bytes decode to. -/
theorem dataRowsAreNoOperation : Obligations.DataRowsAreNoOperation :=
  ⟨fun _ _ _ => rfl, fun _ _ => rfl, fun _ _ => rfl, fun _ _ => rfl, decodeCmd_format⟩

/-- Settles O16: STATUS by the guard and then the operation's own work; what an error leaves is O53's. -/
theorem errorPriority : Obligations.ErrorPriority := by
  refine ⟨fun s => ?_, fun s i hi => ?_⟩
  · obtain ⟨t, he, hst⟩ := compressRle_status s
    exact ⟨t, he, hst, no_output_of_error he⟩
  · obtain ⟨t, he, hst⟩ := colourOperation_status hi s
    exact ⟨t, he, hst, no_output_of_error he⟩

/-- Settles O17: the guard's errors are reached on the way to any work; OK on an empty input, and FormatViolation, by
COMPRESS_RLE alone, on a sentinel. -/
theorem statusTable : Obligations.StatusTable := by
  refine ⟨fun i hi => ⟨fun s t he => ?_, fun k hk => ?_⟩, fun k => ?_⟩
  · obtain ⟨u, hu, hst⟩ := colourOperation_status hi s
    obtain rfl : u = t := Host.Outcome.next.inj (hu.symm.trans he)
    rw [hst]
    exact s.guardedStatus_ne_formatViolation (by decide)
  · rcases op_cases k with rfl | h1 | h2 | h3
    · exact ⟨State.reset, colourOperation_status hi State.reset⟩
    · exact guard_errors_reached (colourOperation_status hi) (.inl h1)
    · exact guard_errors_reached (colourOperation_status hi) (.inr h2)
    · exact absurd h3 hk
  · rcases op_cases k with rfl | h1 | h2 | rfl
    · exact ⟨State.reset, compressRle_status State.reset⟩
    · exact guard_errors_reached compressRle_status (.inl h1)
    · exact guard_errors_reached compressRle_status (.inr h2)
    · exact ⟨_, _, compressRle_formatViolation (by decide) (by decide) sentinel_mem_inBlocks_loadInput, rfl⟩

end Sys2Proof.Machine
end

section
/-!
The decoder and the encoder are inverse to each other on the rows of the opcode table (30_encoding.md sections 1 to 5).
-/

namespace Sys2Proof

/-! ### Command bytes -/

/-- The well-formed reserved rows are those a command byte decodes to (30_encoding.md R84). -/
theorem wellFormed_reservedCmd_iff (c : Byte) :
    (Instr.reservedCmd c).wellFormed = true ↔ decodeCmd c = .reservedCmd c := by
  have h : (Instr.reservedCmd c).wellFormed = true ↔ ¬(c = 0x00#8 ∨ c = 0x01#8 ∨ c = 0x02#8 ∨ c = 0x05#8) := by
    simp [Instr.wellFormed, definedCmds]
  rw [h, ← decodeCmd_ne_reservedCmd_iff, not_not]

/-- A command byte decodes to a well-formed row whose encoding it is. -/
theorem encode_decodeCmd (c : Byte) : encode (decodeCmd c) = [c] ∧ (decodeCmd c).wellFormed = true := by
  by_cases h : decodeCmd c = .reservedCmd c
  · rw [h]
    exact ⟨rfl, (wellFormed_reservedCmd_iff c).2 h⟩
  · obtain ⟨h0, h1, h5, h2⟩ := decodeCmd_defined
    rcases (decodeCmd_ne_reservedCmd_iff c).1 h with rfl | rfl | rfl | rfl
    · rw [h0]
      exact ⟨rfl, rfl⟩
    · rw [h1]
      exact ⟨rfl, rfl⟩
    · rw [h2]
      exact ⟨rfl, rfl⟩
    · rw [h5]
      exact ⟨rfl, rfl⟩

/-! ### Groups -/

@[simp] theorem groupOfBytes_bytes (g : Group) : groupOfBytes g.bytes = some g := rfl

theorem bytes_of_groupOfBytes {bs : List Byte} {g : Group} (h : groupOfBytes bs = some g) : g.bytes = bs := by
  unfold groupOfBytes at h
  split at h
  next =>
    cases h
    rfl
  next => cases h

/-! ### Each format -/

theorem decodeAs_groupYCbCrA_encode (f : YCbCrA) :
    decodeAs .groupYCbCrA (encode (.fmtPixelpairYcbcra f)) = .ok (.fmtPixelpairYcbcra f) := by
  simp only [encode, decodeAs, groupOfBytes_bytes, unpackYCbCrA_packYCbCrA]

theorem decodeAs_cmd_cases {bs : List Byte} {i : Instr} (h : decodeAs .cmd bs = .ok i) :
    ∃ c, bs = [c] ∧ i = decodeCmd c := by
  match bs with
  | [c] =>
    cases h
    exact ⟨c, rfl, rfl⟩
  | [] | _ :: _ :: _ => cases h

/-- A stream that is one record is what is read at its front, with nothing after it. -/
theorem readRecord_of_decodeAs {bs : List Byte} {i : Instr} (h : decodeAs .rleStream bs = .ok i) :
    readRecord bs = .ok (i, []) := by
  rw [decodeAs] at h
  split at h
  next hread =>
    cases h
    exact hread
  next => cases h
  next => cases h

theorem decodeAs_groupYCbCrA_cases {bs : List Byte} {i : Instr} (h : decodeAs .groupYCbCrA bs = .ok i) :
    ∃ g : Group, bs = g.bytes ∧ i = .fmtPixelpairYcbcra (unpackYCbCrA g) := by
  rw [decodeAs] at h
  split at h
  next g hg =>
    cases h
    exact ⟨g, (bytes_of_groupOfBytes hg).symm, rfl⟩
  next => cases h

theorem decodeAs_groupRGBA_cases {bs : List Byte} {i : Instr} (h : decodeAs .groupRGBA bs = .ok i) :
    ∃ g : Group, bs = g.bytes ∧ i = .fmtPixelpairRgba8888 (unpackRGBA g) := by
  rw [decodeAs] at h
  split at h
  next g hg =>
    cases h
    exact ⟨g, (bytes_of_groupOfBytes hg).symm, rfl⟩
  next => cases h

end Sys2Proof

namespace Sys2Proof.Machine

/-! ### The obligations -/

/-- Settles O5: row by row; the opcode map, the records of a stream, and the fields of a group. -/
theorem decodeOfEncode : Obligations.DecodeOfEncode := by
  intro i hw
  obtain ⟨h0, h1, h5, h2⟩ := decodeCmd_defined
  cases i with
  | decodeFrame => exact congrArg Except.ok h0
  | encodeFrame pm =>
    cases pm with
    | false => exact congrArg Except.ok h1
    | true => exact congrArg Except.ok h5
  | compressRle => exact congrArg Except.ok h2
  | reservedCmd c => exact congrArg Except.ok ((wellFormed_reservedCmd_iff c).1 hw)
  | runRecord count payload => exact decodeAs_rleStream_encode rfl hw
  | literalBlock b => exact decodeAs_rleStream_encode rfl hw
  | fmtPixelpairYcbcra f => exact decodeAs_groupYCbCrA_encode f
  | fmtPixelpairRgba8888 p => rfl

/-- Settles O6: in each place, what the bytes are when they decode. -/
theorem encodeOfDecode : Obligations.EncodeOfDecode := by
  intro f bs i h
  cases f with
  | cmd =>
    obtain ⟨c, rfl, rfl⟩ := decodeAs_cmd_cases h
    obtain ⟨henc, hwf⟩ := encode_decodeCmd c
    exact ⟨henc, decodeCmd_format c, hwf⟩
  | rleStream =>
    obtain ⟨hbs, hf, hwf, -⟩ := streamReadsRecordByRecord.2 bs [] i (readRecord_of_decodeAs h)
    exact ⟨by rw [hbs, List.append_nil], hf, hwf⟩
  | groupYCbCrA =>
    obtain ⟨g, rfl, rfl⟩ := decodeAs_groupYCbCrA_cases h
    exact ⟨congrArg Group.bytes (packYCbCrA_unpackYCbCrA g), rfl, rfl⟩
  | groupRGBA =>
    obtain ⟨g, rfl, rfl⟩ := decodeAs_groupRGBA_cases h
    exact ⟨rfl, rfl, rfl⟩

end Sys2Proof.Machine
end

section
/-!
Each operation as its own work under the guard: what an error leaves (60_exceptions.md section 1), what a colour operation
writes (20_memory.md R60), what each operation leaves unchanged, and the invariant.
-/

namespace Sys2Proof.Machine

/-! ### The operations under the guard -/

/-- The work of a colour operation in s is the scan with f, whose length is LEN. -/
def ColourWork (f : Group → Group) (body : State → State) (s : State) : Prop :=
  body s.nextDraw = (scanInput (transformStep f) s.nextDraw).complete s.len

theorem colourWork_decodeBody (s : State) : ColourWork (decodeGroup s.decYTop s.narrow8) decodeBody s := rfl

theorem colourWork_encodeBody (pm : Bool) (s : State) : ColourWork (encodeGroup pm) (encodeBody pm) s := rfl

theorem colourOperation_eq_guarded {i : Instr} (hi : i = .decodeFrame ∨ i = .encodeFrame false ∨ i = .encodeFrame true)
    (s : State) : ∃ f body, ColourWork f body s ∧ exec i s = .next (guarded s.len.toNat body s) := by
  rcases hi with rfl | rfl | rfl
  · exact ⟨_, _, colourWork_decodeBody s, rfl⟩
  · exact ⟨_, _, colourWork_encodeBody false s, rfl⟩
  · exact ⟨_, _, colourWork_encodeBody true s, rfl⟩

theorem operation_eq_guarded {i : Instr}
    (hi : i = .decodeFrame ∨ i = .encodeFrame false ∨ i = .encodeFrame true ∨ i = .compressRle) (s : State) :
    ∃ request body, exec i s = .next (guarded request body s) := by
  rcases hi with rfl | rfl | rfl | rfl
  · exact ⟨_, decodeBody, rfl⟩
  · exact ⟨_, encodeBody false, rfl⟩
  · exact ⟨_, encodeBody true, rfl⟩
  · exact ⟨_, compressBody, rfl⟩

/-- Whatever has a next state is a colour operation or COMPRESS_RLE. -/
theorem operation_of_exec_next {i : Instr} {s t : State} (he : exec i s = .next t) :
    (i = .decodeFrame ∨ i = .encodeFrame false ∨ i = .encodeFrame true) ∨ i = .compressRle := by
  cases i with
  | decodeFrame => exact .inl (.inl rfl)
  | encodeFrame pm =>
    cases pm with
    | false => exact .inl (.inr (.inl rfl))
    | true => exact .inl (.inr (.inr rfl))
  | compressRle => exact .inr rfl
  | reservedCmd _ | runRecord _ _ | literalBlock _ | fmtPixelpairYcbcra _ | fmtPixelpairRgba8888 _ => cases he

/-! ### The errors -/

/-- Settles O13: the guard's first check. -/
theorem invalidLengthOutcome : Obligations.InvalidLengthOutcome := by
  intro s i hi h8
  obtain ⟨request, body, he⟩ := operation_eq_guarded hi s
  rw [he, guarded_invalidLength h8]
  rfl

/-- Settles O14: the guard's second check. -/
theorem allocationFailureOutcome : Obligations.AllocationFailureOutcome := by
  intro s i hi h8 ha
  obtain ⟨request, body, he⟩ := operation_eq_guarded hi s
  rw [he, guarded_allocationFailure h8 ha]
  rfl

theorem State.readBlock_mem_inBlocks {s : State} {g : Nat} (hg : g < s.groupCount) : s.readBlock g ∈ s.inBlocks :=
  List.mem_map_of_mem (List.mem_range.2 hg)

/-- Settles O15: the block read at 8g is one of the input's blocks. -/
theorem formatViolationOutcome : Obligations.FormatViolationOutcome := by
  intro s g h8 ha hg hread
  have hblock : s.readBlock g = sentinel := congrArg (BitVec.ofNat 64) hread
  rw [compressRle_formatViolation h8 ha (hblock ▸ State.readBlock_mem_inBlocks hg)]
  rfl

/-! ### What a colour operation writes -/

/-- A colour operation with a good LEN and a grant: every output group is f of the input group. -/
theorem colourOperation_result {f : Group → Group} {body : State → State} {s : State} (hwork : ColourWork f body s)
    (h8 : s.len.toNat % 8 = 0) (ha : s.allocOk = true) (request : Nat) :
    ∃ t, guarded request body s = t ∧ t.status = statusOk ∧ t.outLen = s.len ∧ t.scan = s.len.toNat / 8 ∧
      ∀ g k, g < s.len.toNat / 8 → k < 8 → t.hostReadOut (8 * g + k) = (f (s.readGroup g)).bytes[k]? := by
  rcases colourOperation_cases f request body s hwork with ⟨h, -⟩ | ⟨-, h, -⟩ | ⟨-, -, m, he, hread, -⟩
  · exact absurd h8 h
  · cases ha.symm.trans h
  · refine ⟨_, he, rfl, rfl, rfl, fun g k hg hk => ?_⟩
    have hoff : 8 * g + k < s.len.toNat := State.groupOffset_lt_len hg hk
    rw [State.hostReadOut_of_lt hoff]
    change m.read? _ = _
    rw [hread, if_pos (by rw [State.eight_mul_groupCount h8]; exact hoff), show (8 * g + k) / 8 = g by omega,
      show (8 * g + k) % 8 = k by omega]

/-- Settles O18: the eight bytes of a decoded group, in the order of the RGBA format. -/
theorem decodeFrameResult : Obligations.DecodeFrameResult := by
  intro s h8 ha
  obtain ⟨t, rfl, hok, hlen, hscan, hread⟩ := colourOperation_result (colourWork_decodeBody s) h8 ha s.len.toNat
  exact ⟨_, rfl, hok, hlen, hscan, fun g hg => ⟨hread g 0 hg (by decide), hread g 1 hg (by decide),
    hread g 2 hg (by decide), hread g 3 hg (by decide), hread g 4 hg (by decide), hread g 5 hg (by decide),
    hread g 6 hg (by decide), hread g 7 hg (by decide)⟩⟩

/-- Settles O25: the codes are the definition's, and an encoded group is their packing. -/
theorem encodeFrameResult : Obligations.EncodeFrameResult := by
  refine ⟨fun _ _ => rfl, fun s pm h8 ha => ?_⟩
  obtain ⟨t, rfl, hok, hlen, hscan, hread⟩ := colourOperation_result (colourWork_encodeBody pm s) h8 ha s.len.toNat
  exact ⟨_, rfl, hok, hlen, hscan, hread⟩

/-! ### What an operation leaves unchanged -/

/-- All that an operation may change between s and t: the results, the working registers, the scan index and the draw. -/
def WorkFrame (s t : State) : Prop :=
  t = { s with
    status := t.status, outLen := t.outLen, outBuf := t.outBuf, prev := t.prev, count := t.count, wptr := t.wptr
    scan := t.scan, allocOk := t.allocOk, allocDraws := t.allocDraws }

/-- Settles O35: an error keeps OUT and the scan index; a success writes below 8·(LEN/8). -/
theorem colourOperationsFrame : Obligations.ColourOperationsFrame := by
  intro i s t hi he
  obtain ⟨f, body, hwork, hexec⟩ := colourOperation_eq_guarded hi s
  obtain rfl := Host.Outcome.next.inj (hexec.symm.trans he)
  rcases colourOperation_cases f s.len.toNat body s hwork with ⟨-, h⟩ | ⟨-, -, h⟩ | ⟨-, -, m, h, hread, -⟩ <;> rw [h]
  · exact ⟨rfl, fun _ _ => rfl, fun _ => ⟨rfl, rfl⟩⟩
  · exact ⟨rfl, fun _ _ => rfl, fun _ => ⟨rfl, rfl⟩⟩
  · refine ⟨rfl, fun off hoff => ?_, fun herr => absurd rfl herr⟩
    have hle := s.groupCount_le_len
    exact (hread off).trans (if_neg (by omega))

/-- Settles O47: an error keeps OUT and the working registers; a success writes the closed form from offset 0 and has
its length in OUT_LEN. -/
theorem compressFrame : Obligations.CompressFrame := by
  intro s t he
  rcases execCompressRle_cases s with ⟨-, h⟩ | ⟨-, -, h⟩ | ⟨-, -, -, h⟩ | ⟨-, -, -, p, c, w, h, hw, -⟩ <;>
    obtain rfl := Host.Outcome.next.inj (h.symm.trans he)
  · exact ⟨rfl, fun _ _ => rfl, fun _ => ⟨rfl, rfl, rfl, rfl, rfl⟩⟩
  · exact ⟨rfl, fun _ _ => rfl, fun _ => ⟨rfl, rfl, rfl, rfl, rfl⟩⟩
  · exact ⟨rfl, fun _ _ => rfl, fun _ => ⟨rfl, rfl, rfl, rfl, rfl⟩⟩
  · refine ⟨rfl, fun off (hoff : w.toNat ≤ off) => ?_, fun herr => absurd rfl herr⟩
    exact Memory.read?_writeBytes_outside (.inr (by rw [blocksBytes_length]; omega)) _

theorem exec_workFrame {i : Instr} {s t : State} (he : exec i s = .next t) : WorkFrame s t := by
  rcases operation_of_exec_next he with hi | rfl
  · obtain ⟨hframe, -⟩ := colourOperationsFrame i s t hi he
    rw [WorkFrame, hframe]
  · exact (compressFrame s t he).1

/-- Settles O58: none of these is in the frame of an operation's work. -/
theorem hostSideUnchanged : Obligations.HostSideUnchanged := by
  intro s t he
  have h : WorkFrame s t := exec_workFrame he
  rw [h]
  exact ⟨rfl, rfl, rfl, rfl, rfl, rfl, rfl⟩

/-- An operation leaves its own input, but for the draw. -/
theorem sameInput_after {i : Instr} {s t : State} (he : exec i s = .next t) :
    SameInput s (t.hostMove (.drawAlloc s.allocOk)) := by
  rw [exec_workFrame he]
  exact ⟨rfl, fun _ _ => State.readIn_congr rfl _, rfl, rfl, rfl⟩

/-- Settles O57: the second run has the first one's input, on which alone the result depends (O52). -/
theorem repeatGivesSameResult : Obligations.RepeatGivesSameResult := fun i _ _ he =>
  resultDependsOnInputOnly i _ _ _ (sameInput_after he) he

/-! ### The invariant -/

theorem exec_outLen_mod_eight {i : Instr} {s t : State} (he : exec i s = .next t) : t.outLen.toNat % 8 = 0 := by
  rcases operation_of_exec_next he with hi | rfl
  · obtain ⟨f, body, hwork, hexec⟩ := colourOperation_eq_guarded hi s
    obtain rfl := Host.Outcome.next.inj (hexec.symm.trans he)
    rcases colourOperation_cases f s.len.toNat body s hwork with ⟨-, h⟩ | ⟨-, -, h⟩ | ⟨h8, -, m, h, -, -⟩ <;> rw [h]
    · rfl
    · rfl
    · exact h8
  · exact (outputLengthLaws.2 s t he).1

theorem exec_outBuf_wf {i : Instr} {s t : State} (he : exec i s = .next t) (hwf : s.outBuf.wf = true) :
    t.outBuf.wf = true := by
  rcases operation_of_exec_next he with hi | rfl
  · obtain ⟨f, body, hwork, hexec⟩ := colourOperation_eq_guarded hi s
    obtain rfl := Host.Outcome.next.inj (hexec.symm.trans he)
    rcases colourOperation_cases f s.len.toNat body s hwork with ⟨-, h⟩ | ⟨-, -, h⟩ | ⟨-, -, m, h, -, hm⟩ <;> rw [h]
    · exact hwf
    · exact hwf
    · exact hm hwf
  · rcases execCompressRle_cases s with ⟨-, h⟩ | ⟨-, -, h⟩ | ⟨-, -, -, h⟩ | ⟨-, -, -, p, c, w, h, hw, -⟩ <;>
      obtain rfl := Host.Outcome.next.inj (h.symm.trans he)
    · exact hwf
    · exact hwf
    · exact hwf
    · refine Memory.wf_writeBytes ?_ hwf
      have := w.isLt
      rw [blocksBytes_length]
      omega

theorem exec_keeps_inv {i : Instr} {s t : State} (hinv : s.Inv) (he : exec i s = .next t) : t.Inv := by
  obtain ⟨hin, hout, -⟩ := hinv
  have hin' : t.inBuf = s.inBuf := by rw [exec_workFrame he]
  refine ⟨hin' ▸ hin, exec_outBuf_wf he hout, exec_outLen_mod_eight he, ?_⟩
  rcases allOrNothing i s t he with ⟨hok, hread⟩ | ⟨-, hlen, -⟩
  · refine ⟨fun herr => absurd hok herr, fun off hoff => ?_⟩
    rw [← State.hostReadOut_of_lt hoff]
    exact hread off hoff
  · refine ⟨fun _ => hlen, fun off hoff => ?_⟩
    rw [hlen] at hoff
    exact absurd hoff (Nat.not_lt_zero off)

/-- The host writes IN within the address space, and none of the results. -/
theorem State.hostMove_keeps_inv {s : State} (hinv : s.Inv) (m : HostMove) : (s.hostMove m).Inv := by
  obtain ⟨hin, hrest⟩ := hinv
  cases m with
  | writeIn off v => exact ⟨Memory.wf_write off.isLt v hin, hrest⟩
  | writeCmd _ | writeWidth _ | writeHeight _ | writeLen _ | drawAlloc _ => exact ⟨hin, hrest⟩

theorem State.reset_inv (top : DecYTop) (table : Narrow8Table) :
    ({ State.reset with decYTop := top, narrow8 := table } : State).Inv :=
  ⟨State.reset_inBuf_wf, State.reset_outBuf_wf, rfl, fun _ => rfl, fun off hoff => absurd hoff (Nat.not_lt_zero off)⟩

/-- Settles O49: both memories are empty and OUT_LEN is 0. -/
theorem resetIsWellFormed : Obligations.ResetIsWellFormed := State.reset_inv .layout []

/-- Settles O50: a step is an operation, which leaves IN, and OUT all written or no output at all (O53). -/
theorem stepKeepsInvariant : Obligations.StepKeepsInvariant := fun _ _ hinv he => exec_keeps_inv hinv he

/-- Settles O51: by induction on how the state is reached. -/
theorem reachableStatesAreWellFormed : Obligations.ReachableStatesAreWellFormed := by
  intro s h
  induction h with
  | reset top table => exact State.reset_inv top table
  | host m _ ih => exact State.hostMove_keeps_inv ih m
  | step _ he ih => exact stepKeepsInvariant _ _ ih he

/-! ### The step -/

/-- Settles O1: CMD is the one byte fetched, and it is decoded the same way. -/
theorem stepRunsTheCommandInCmd : Obligations.StepRunsTheCommandInCmd := by
  refine fun s i => ⟨rfl, fun h => ?_⟩
  obtain rfl := Except.ok.inj h
  rfl

/-- Settles O59: the defined commands run an operation, the others are refused (O3). -/
theorem everyOperationEnds : Obligations.EveryOperationEnds := by
  intro s
  obtain ⟨h0, h1, h5, h2⟩ := decodeCmd_defined
  rw [← decodeCmd_ne_reservedCmd_iff]
  refine ⟨fun h => ?_, fun ⟨t, he⟩ h => ?_⟩
  · rcases (decodeCmd_ne_reservedCmd_iff s.cmd).1 h with hc | hc | hc | hc <;> rw [step, State.fetched, hc]
    · exact ⟨_, congrArg (exec · s) h0⟩
    · exact ⟨_, congrArg (exec · s) h1⟩
    · exact ⟨_, congrArg (exec · s) h2⟩
    · exact ⟨_, congrArg (exec · s) h5⟩
  · cases (reservedCommandsHaveNoStep.2.2.2 s h).symm.trans he

end Sys2Proof.Machine
end

section
/-!
The host's side (20_memory.md sections 1 and 7): what a loaded input reads as, and what a move of the host and its copy of
OUT to IN (70_reset_and_hazards.md R249) change.
-/

namespace Sys2Proof.Machine

/-! ### Reading what was written -/

theorem State.readIn_of_read? {s : State} {off : Nat} {b : Byte} (h : s.inBuf.read? off = some b) :
    s.readIn off = b := by
  rw [State.readIn, h]

/-- A read of IN at one offset sees nothing of the state but that offset. -/
theorem State.readIn_congr_read? {s t : State} {off : Nat} (h : s.inBuf.read? off = t.inBuf.read? off) :
    s.readIn off = t.readIn off := by
  rw [State.readIn, State.readIn, h]

/-- Settles O55: the bytes of the list inside its range, the former ones outside it. -/
theorem loadedInputReadsBack : Obligations.LoadedInputReadsBack := by
  intro s bs hlen
  have hread (off : Nat) : (s.loadInput bs).inBuf.read? off = if off < bs.length then bs[off]? else s.inBuf.read? off := by
    simp [State.loadInput, Memory.read?_writeBytes]
  refine ⟨?_, fun k hk => ?_, fun off hoff => ?_, rfl, rfl, rfl⟩
  · exact (BitVec.toNat_ofNat _ _).trans (Nat.mod_eq_of_lt hlen)
  · have hk' := hread k
    rw [if_pos hk, List.getElem?_eq_getElem hk] at hk'
    rw [List.getElem?_eq_getElem hk, State.readIn_of_read? hk']
  · exact State.readIn_congr_read? ((hread off).trans (if_neg (Nat.not_lt.2 hoff)))

/-! ### What the host reads stays through its moves (10_state.md R37) -/

theorem sameResult_hostMove (s : State) (m : HostMove) : SameResult s (s.hostMove m) :=
  ⟨(s.hostMove_status m).symm, (s.hostMove_outLen m).symm, fun off => (s.hostMove_hostReadOut m off).symm⟩

theorem SameResult.trans {s t u : State} (h : SameResult s t) (h' : SameResult t u) : SameResult s u := by
  obtain ⟨hst, hlen, hread⟩ := h
  obtain ⟨hst', hlen', hread'⟩ := h'
  exact ⟨hst.trans hst', hlen.trans hlen', fun off => (hread off).trans (hread' off)⟩

theorem sameResult_hostMoves (s : State) (moves : List HostMove) : SameResult s (moves.foldl State.hostMove s) := by
  induction moves generalizing s with
  | nil => exact ⟨rfl, rfl, fun _ => rfl⟩
  | cons m moves ih => exact (sameResult_hostMove s m).trans (ih _)

/-! ### The copy for chaining -/

theorem State.copyOutToIn_frame (s : State) :
    s.copyOutToIn = { s with inBuf := s.copyOutToIn.inBuf, len := s.outLen } := by
  rw [State.copyOutToIn, s.copyBytes_frame]

theorem sameResult_copyOutToIn (s : State) : SameResult s s.copyOutToIn := by
  rw [State.copyOutToIn_frame]
  exact ⟨rfl, rfl, fun _ => rfl⟩

/-- Where the host reads no byte of OUT the copy leaves IN. -/
theorem State.copyOutToIn_readIn_of_none {s : State} {off : Nat} (h : s.hostReadOut off = none) :
    s.copyOutToIn.readIn off = s.readIn off := by
  refine State.readIn_congr_read? ((s.copyBytes_read s.outLen.toNat off).trans ?_)
  rw [h, Option.none_or, ite_self]

/-- Settles O60: each move is its own update; a list of moves by induction; the copy is a sequence of writes to IN. -/
theorem hostMovesChangeOnlyTheirTarget : Obligations.HostMovesChangeOnlyTheirTarget := by
  refine ⟨fun _ _ => rfl, fun _ _ => rfl, fun _ _ => rfl, fun _ _ => rfl, fun _ _ => rfl,
    fun s off v => ⟨rfl, ?_, fun a ha => ?_⟩, sameResult_hostMoves,
    fun s => ⟨s.copyOutToIn_frame, sameResult_copyOutToIn s, fun _ _ => State.copyOutToIn_readIn,
      fun _ => State.copyOutToIn_readIn_of_none⟩⟩
  · exact State.readIn_of_read? (Memory.read?_write_same off.toNat v s.inBuf)
  · exact State.readIn_congr_read? (Memory.read?_write_other ha v s.inBuf)

end Sys2Proof.Machine
end

section
/-!
COMPRESS_RLE (42_rle_compress.md sections 3 and 4): its registers during a scan, the division into maximal runs, and its
output as a closed form and as a list of records.
-/

namespace Sys2Proof.Machine

/-! ### The registers during a scan (R193) -/

/-- Settles O38: the runs flushed so far and the pending run are what k blocks multiply out to. -/
theorem rleRegistersStayInRange : Obligations.RleRegistersStayInRange := by
  intro s k hk u
  have hlen := s.groupCount_le_len
  have hcount : k ≤ s.groupCount := hk
  have hlt := s.groupCount_lt
  obtain ⟨flushed, h⟩ := rleScan_spec s k (by omega)
  change ScanAt s.startRun k u flushed at h
  obtain ⟨hroom, hle⟩ := h.room
  have hscan : u.scan = k := by rw [h.frame]
  refine ⟨hscan, hle, by rw [h.wptr]; omega, by omega, by omega, fun h0 => ?_, fun h0 => ?_⟩
  · by_contra hne
    have hpending := h.pending (Nat.pos_of_ne_zero hne)
    rw [h0] at hpending
    exact absurd hpending (by decide)
  · exact BitVec.eq_of_toNat_eq (h.start h0).2

/-! ### The division into maximal runs (R191) -/

/-- Proper runs, element by element. -/
theorem runsProper_iff (rs : List (Block × Nat)) :
    RunsProper rs ↔ (∀ r ∈ rs, 1 ≤ r.2) ∧ rs.IsChain (·.1 ≠ ·.1) := by
  induction rs with
  | nil => simp [RunsProper]
  | cons r rs ih =>
    cases rs with
    | nil => simp [RunsProper]
    | cons r' rs =>
      rw [RunsProper, ih, List.forall_mem_cons (a := r), List.isChain_cons_cons]
      tauto

/-- A chain, as the statements write it: by neighbouring positions. -/
theorem isChain_iff_getElem? {α : Type} {R : α → α → Prop} {l : List α} :
    l.IsChain R ↔ ∀ (k : Nat) (a b : α), l[k]? = some a → l[k + 1]? = some b → R a b := by
  rw [List.isChain_iff_getElem]
  refine ⟨fun h k a b ha hb => ?_, fun h k hk => ?_⟩
  · obtain ⟨_, rfl⟩ := List.getElem?_eq_some_iff.1 ha
    obtain ⟨hk, rfl⟩ := List.getElem?_eq_some_iff.1 hb
    exact h k hk
  · exact h k _ _ (List.getElem?_eq_getElem _) (List.getElem?_eq_getElem hk)

theorem runsProper_maximalRuns (bs : List Block) : RunsProper (maximalRuns bs) := by
  induction bs with
  | nil => trivial
  | cons b bs ih =>
    rw [maximalRuns]
    split
    next => exact Nat.le_refl 1
    next v n rs hruns =>
      rw [hruns] at ih
      split
      next =>
        cases rs with
        | nil => exact Nat.le_add_left 1 n
        | cons r rs => exact ⟨Nat.le_add_left 1 n, ih.2⟩
      next hne => exact ⟨Nat.le_refl 1, hne, ih⟩

/-- Settles O39: the maximal runs are proper, and proper runs are the maximal runs of what they multiply out to. -/
theorem maximalRunsDivideTheInput : Obligations.MaximalRunsDivideTheInput := by
  intro bs
  obtain ⟨hpos, hchain⟩ := (runsProper_iff _).1 (runsProper_maximalRuns bs)
  refine ⟨expandRuns_maximalRuns bs, hpos, isChain_iff_getElem?.1 hchain, fun rs hbs hpos' hchain' => ?_⟩
  have hproper : RunsProper rs := (runsProper_iff rs).2 ⟨hpos', isChain_iff_getElem?.2 hchain'⟩
  calc rs = maximalRuns (expandRuns rs) := (maximalRuns_expandRuns hproper).symm
    _ = maximalRuns bs := congrArg maximalRuns hbs

/-! ### The output as a closed form (R190, R191) -/

/-- Settles O40: with the three errors excluded only the success is left. -/
theorem compressClosedForm : Obligations.CompressClosedForm := by
  intro s h8 ha hs
  have hsent : s.hasSentinel ≠ true := fun h => hs sentinel (s.hasSentinel_iff_mem.1 h) rfl
  rcases execCompressRle_cases s with ⟨h, -⟩ | ⟨-, h, -⟩ | ⟨-, -, h, -⟩ | ⟨-, -, -, p, c, w, he, hw, -⟩
  · exact absurd h8 h
  · cases ha.symm.trans h
  · exact absurd h hsent
  · exact ⟨_, he, rfl, rfl, rfl, hw, State.outBytes_of_writeBytes rfl (hw.trans (blocksBytes_length _).symm)⟩

/-- One run is its own division. -/
theorem maximalRuns_replicate {v : Block} {n : Nat} (hn : 1 ≤ n) : maximalRuns (List.replicate n v) = [(v, n)] := by
  have h : RunsProper [(v, n)] := hn
  have hruns := maximalRuns_expandRuns h
  rwa [expandRuns_cons, expandRuns_nil, List.append_nil] at hruns

theorem State.inBlocks_eq_replicate {s : State} {v : Block} (h : ∀ g, g < s.groupCount → s.readBlock g = v) :
    s.inBlocks = List.replicate s.groupCount v := by
  refine List.eq_replicate_iff.2 ⟨s.inBlocks_length, fun b hb => ?_⟩
  obtain ⟨g, hg, rfl⟩ := List.mem_map.1 hb
  exact h g (List.mem_range.1 hg)

/-- Settles O43: the input is one run, and its closed form one run-record. -/
theorem oneRunOneRecord : Obligations.OneRunOneRecord := by
  intro s v h8 ha hv h24 hblocks
  have hin : s.inBlocks = List.replicate s.groupCount v := State.inBlocks_eq_replicate hblocks
  have h3 : 3 ≤ s.groupCount := by
    have := State.eight_mul_groupCount h8
    omega
  have hlt := s.groupCount_lt
  have hform : rleClosedForm s.inBlocks = runBlocks (v, s.groupCount) := by
    rw [rleClosedForm, hin, maximalRuns_replicate (by omega), List.flatMap_singleton]
  obtain ⟨t, he, hok, -, -, hlen, hout⟩ :=
    compressClosedForm s h8 ha fun b hb => by rw [hin] at hb; rwa [List.eq_of_mem_replicate hb]
  rw [hform] at hlen hout
  refine ⟨t, he, hok, BitVec.eq_of_toNat_eq (hlen.trans ?_), hout.trans ?_⟩
  · rw [runBlocks_of_three_le h3]
    rfl
  · rw [blocksBytes_runBlocks_of_three_le h3 (by omega)]
    rfl

/-! ### The output as records (R191, 30_encoding.md R98, R100) -/

/-- The records of one maximal run. -/
def runRecords (r : Block × Nat) : List Instr :=
  if runMin ≤ r.2 then [.runRecord (BitVec.ofNat 64 r.2) r.1] else List.replicate r.2 (.literalBlock r.1)

theorem runRecords_of_three_le {r : Block × Nat} (h : 3 ≤ r.2) :
    runRecords r = [.runRecord (BitVec.ofNat 64 r.2) r.1] := if_pos h

theorem runRecords_of_lt {r : Block × Nat} (h : r.2 < 3) : runRecords r = List.replicate r.2 (.literalBlock r.1) :=
  if_neg (Nat.not_le.2 h)

theorem parseStream_replicate_append {v : Block} (hv : v ≠ sentinel) (n : Nat) (rest : List Block) :
    parseStream (List.replicate n v ++ rest) =
      (parseStream rest).map (List.replicate n (Instr.literalBlock v) ++ ·) := by
  induction n with
  | zero => simp
  | succ n ih => simp [List.replicate_succ, parseStream_literal hv, ih, Function.comp_def]

/-- What a run contributes parses into its records. -/
theorem parseStream_runBlocks_append {r : Block × Nat} (hv : r.1 ≠ sentinel) (rest : List Block) :
    parseStream (runBlocks r ++ rest) = (parseStream rest).map (runRecords r ++ ·) := by
  rcases Nat.lt_or_ge r.2 3 with h | h
  · rw [runBlocks_of_lt h, runRecords_of_lt h, parseStream_replicate_append hv]
  · rw [runBlocks_of_three_le h, runRecords_of_three_le h]
    exact parseStream_run _ _ _

theorem parseStream_flatMap_runBlocks {rs : List (Block × Nat)} (h : ∀ r ∈ rs, r.1 ≠ sentinel) :
    parseStream (rs.flatMap runBlocks) = some (rs.flatMap runRecords) := by
  induction rs with
  | nil => rfl
  | cons r rs ih =>
    obtain ⟨hv, hrs⟩ := List.forall_mem_cons.1 h
    rw [List.flatMap_cons, parseStream_runBlocks_append hv, ih hrs]
    rfl

/-- A run's records encode to what it contributes. -/
theorem flatMap_encode_runRecords (r : Block × Nat) : (runRecords r).flatMap encode = blocksBytes (runBlocks r) := by
  rcases Nat.lt_or_ge r.2 3 with h | h
  · rw [runBlocks_of_lt h, runRecords_of_lt h, ← List.map_replicate, List.flatMap_map]
    rfl
  · rw [runBlocks_of_three_le h, runRecords_of_three_le h]
    simp [encode]

theorem flatMap_encode_flatMap_runRecords (rs : List (Block × Nat)) :
    (rs.flatMap runRecords).flatMap encode = blocksBytes (rs.flatMap runBlocks) := by
  rw [blocksBytes, List.flatMap_assoc, List.flatMap_assoc]
  exact List.flatMap_congr fun r _ => flatMap_encode_runRecords r

theorem recordWritten_of_mem_runRecords {r : Block × Nat} (hv : r.1 ≠ sentinel) (hn : r.2 < 2 ^ 64) {i : Instr}
    (hi : i ∈ runRecords r) : recordWritten i = true := by
  rcases Nat.lt_or_ge r.2 3 with h | h
  · rw [runRecords_of_lt h] at hi
    rw [List.eq_of_mem_replicate hi]
    simpa [recordWritten] using hv
  · rw [runRecords_of_three_le h, List.mem_singleton] at hi
    rw [hi]
    have hcount : (BitVec.ofNat 64 r.2).toNat = r.2 := by rw [BitVec.toNat_ofNat, Nat.mod_eq_of_lt hn]
    simp [recordWritten, runMin, -BitVec.toNat_ofNat, hcount, h, hv]

theorem recordBlock_of_mem_runRecords {r : Block × Nat} {i : Instr} (hi : i ∈ runRecords r) :
    recordBlock i = some r.1 := by
  rcases Nat.lt_or_ge r.2 3 with h | h
  · rw [runRecords_of_lt h] at hi
    rw [List.eq_of_mem_replicate hi]
    rfl
  · rw [runRecords_of_three_le h, List.mem_singleton] at hi
    rw [hi]
    rfl

/-- Two neighbours of one block are both literals. -/
def LiteralsIfSameBlock (i i' : Instr) : Prop :=
  recordBlock i = recordBlock i' → (∃ b, i = .literalBlock b) ∧ ∃ b, i' = .literalBlock b

/-- Inside one run's records: one record, or literals only. -/
theorem isChain_runRecords (r : Block × Nat) : (runRecords r).IsChain LiteralsIfSameBlock := by
  rcases Nat.lt_or_ge r.2 3 with h | h
  · rw [runRecords_of_lt h]
    exact List.isChain_replicate_of_rel r.2 fun _ => ⟨⟨_, rfl⟩, _, rfl⟩
  · rw [runRecords_of_three_le h]
    exact List.isChain_singleton _

theorem runRecords_ne_nil {r : Block × Nat} (h : 1 ≤ r.2) : runRecords r ≠ [] := by
  rw [runRecords]
  split
  next => exact List.cons_ne_nil _ _
  next => exact fun h0 => absurd (List.replicate_eq_nil_iff _ |>.1 h0) (by omega)

/-- Between two runs the blocks differ. -/
theorem isChain_flatMap_runRecords {rs : List (Block × Nat)} (h : RunsProper rs) :
    (rs.flatMap runRecords).IsChain LiteralsIfSameBlock := by
  obtain ⟨hpos, hchain⟩ := (runsProper_iff rs).1 h
  have hne : [] ∉ rs.map runRecords := by
    rw [List.mem_map]
    rintro ⟨r, hr, h0⟩
    exact runRecords_ne_nil (hpos r hr) h0
  rw [List.flatMap_def, List.isChain_flatten hne]
  refine ⟨fun l hl => ?_, ?_⟩
  · obtain ⟨r, -, rfl⟩ := List.mem_map.1 hl
    exact isChain_runRecords r
  · rw [List.isChain_map]
    refine hchain.imp fun r r' hne i hi i' hi' hsame => absurd ?_ hne
    rw [recordBlock_of_mem_runRecords (List.mem_of_getLast? hi),
      recordBlock_of_mem_runRecords (List.mem_of_head? hi')] at hsame
    exact Option.some.inj hsame

/-- Settles O44: the records of the maximal runs, in order. -/
theorem compressWritesCanonicalRecords : Obligations.CompressWritesCanonicalRecords := by
  intro s t he hok
  obtain ⟨-, hs, -, hout⟩ := compressRle_of_ok he hok
  have hruns : ∀ r ∈ maximalRuns s.inBlocks, r.1 ≠ sentinel ∧ r.2 < 2 ^ 64 := fun r hr => by
    obtain ⟨hmem, hle⟩ := mem_and_le_of_mem_maximalRuns hr
    have hlt := s.groupCount_lt
    rw [State.inBlocks_length] at hle
    exact ⟨fun h => hs (h ▸ hmem), by omega⟩
  have hparse : parseStream (rleClosedForm s.inBlocks) = some ((maximalRuns s.inBlocks).flatMap runRecords) :=
    parseStream_flatMap_runBlocks fun r hr => (hruns r hr).1
  refine ⟨_, _, hout, hparse, flatMap_encode_flatMap_runRecords _, fun i hi => ?_,
    isChain_iff_getElem?.1 (isChain_flatMap_runRecords (runsProper_maximalRuns _))⟩
  obtain ⟨r, hr, hi'⟩ := List.mem_flatMap.1 hi
  obtain ⟨hv, hn⟩ := hruns r hr
  exact recordWritten_of_mem_runRecords hv hn hi'

/-! ### Data that holds no sentinel (70_reset_and_hazards.md section 3) -/

/-- Settles O46: the top eight bits of the first alpha field are the group's first byte. -/
theorem peerDataIsNoSentinel : Obligations.PeerDataIsNoSentinel := by
  intro s g ha
  refine State.readBlock_ne_sentinel fun h0 => ?_
  have htop : (unpackYCbCrA (s.readGroup g)).a0.toNat =
      (s.readIn (8 * g)).toNat * 2 ^ 4 + ((s.readGroup g).b1.extractLsb' 4 4).toNat := toNat_append_eq_add _ _
  rw [h0, show (0xFE#8).toNat = 0xFE from rfl] at htop
  omega

end Sys2Proof.Machine
end

section
/-!
DECODE_FRAME's values at the edges (40_decode_ycbcra_to_rgba.md sections 3 and 5), the ties of ENCODE_FRAME's rounding
(41_encode_rgba_to_ycbcra.md section 3), and the round trip of an opaque colour (section 5).
-/

namespace Sys2Proof.Machine

/-! ### narrow8 and the alpha bytes -/

theorem toNat_ofInt_byte (t : Int) : ((BitVec.ofInt 8 t).toNat : Int) = t % 256 := by
  rw [BitVec.toNat_ofInt]
  omega

theorem narrow8_toNat_of_mem {t : Int} (h0 : 0 ≤ t) (h255 : t ≤ 255) (table : Narrow8Table) :
    ((narrow8 table t).toNat : Int) = t := by
  rw [narrow8_of_mem h0 h255, toNat_ofInt_byte]
  omega

/-- Outside 0..255 the table is asked (00_scope.md section 5). -/
theorem narrow8_of_not_mem {t : Int} (h : t < 0 ∨ 255 < t) (table : Narrow8Table) :
    narrow8 table t = narrow8Open table t := if_neg (by omega)

theorem narrow8Open_of_lookup {table : Narrow8Table} {t : Int} {b : Byte} (h : table.lookup t = some b) :
    narrow8Open table t = b := by
  rw [narrow8Open, h]

theorem narrow8Open_of_lookup_none {table : Narrow8Table} {t : Int} (h : table.lookup t = none) :
    narrow8Open table t = BitVec.ofInt 8 t := by
  rw [narrow8Open, h]

/-- For the alpha fields 13..937 the quotient truncates to a byte; below 16 it is negative and truncates to 0. -/
theorem alphaByte_toNat {a : BitVec 12} (h : 13 ≤ a.toNat) (h' : a.toNat ≤ 937) (table : Narrow8Table) :
    (alphaByte table a).toNat = 5 * (a.toNat - 16) / 18 := by
  have htdiv : (5 * ((a.toNat : Int) - 16)).tdiv 18 = ((5 * (a.toNat - 16) / 18 : Nat) : Int) := by
    rcases Nat.lt_or_ge a.toNat 16 with hlt | hge
    · rw [← neg_neg ((5 * ((a.toNat : Int) - 16)).tdiv 18), ← Int.neg_tdiv, Int.tdiv_eq_ediv_of_nonneg (by omega)]
      omega
    · rw [Int.tdiv_eq_ediv_of_nonneg (by omega)]
      omega
  rw [alphaByte_eq_narrow8_tdiv, htdiv]
  exact Int.ofNat_inj.1 (narrow8_toNat_of_mem (Int.natCast_nonneg _) (by omega) table)

theorem alphaByte_of_ge {a : BitVec 12} (h : 934 ≤ a.toNat) (h' : a.toNat ≤ 937) (table : Narrow8Table) :
    alphaByte table a = 255#8 := by
  apply BitVec.eq_of_toNat_eq
  rw [alphaByte_toNat (by omega) h', BitVec.toNat_ofNat]
  omega

/-- Settles O21: the byte of a fraction; outside 13..937, its integer form under the empty table. -/
theorem decodeAlphaValues : Obligations.DecodeAlphaValues := by
  refine ⟨fun table t => ⟨fun h0 h255 => narrow8_toNat_of_mem h0 h255 table, fun h => ?_⟩, fun table a h h' => ?_,
    fun table => ?_, ?_⟩
  · rw [narrow8_of_not_mem h]
    exact ⟨fun b hb => narrow8Open_of_lookup hb,
      fun hnone => by rw [narrow8Open_of_lookup_none hnone, toNat_ofInt_byte]⟩
  · have hbyte := alphaByte_toNat h h' table
    refine ⟨hbyte, fun h19 => ?_, fun h934 => alphaByte_of_ge h934 h' table⟩
    apply BitVec.eq_of_toNat_eq
    rw [hbyte, BitVec.toNat_ofNat]
    omega
  · exact ⟨BitVec.eq_of_toNat_eq (alphaByte_toNat (by decide) (by decide) table),
      BitVec.eq_of_toNat_eq (alphaByte_toNat (by decide) (by decide) table),
      BitVec.eq_of_toNat_eq (alphaByte_toNat (by decide) (by decide) table)⟩
  · simp only [alphaByte_eq_narrow8_tdiv]
    decide

/-! ### The ranges of the channel values -/

/-- The two groups whose bytes are all 0 and all 255 have equal top luma bits, so DEC_Y_TOP plays no part; their bytes
under the default NARROW8. -/
theorem decodeGroup_extreme (top : DecYTop) :
    decodeGroup top [] ⟨0#8, 0#8, 0#8, 0#8, 0#8, 0#8, 0#8, 0#8⟩ =
      ⟨0x07#8, 0x4D#8, 0xDE#8, 0xFC#8, 0x07#8, 0x4D#8, 0xDE#8, 0xFC#8⟩ ∧
    decodeGroup top [] ⟨255#8, 255#8, 255#8, 255#8, 255#8, 255#8, 255#8, 255#8⟩ =
      ⟨0xFF#8, 0xB8#8, 0xFF#8, 0x6D#8, 0xFF#8, 0xB8#8, 0xFF#8, 0x6D#8⟩ := by
  rw [decodeGroup, decodeGroup, decodeFields_eq_of_topBits_eq rfl, decodeFields_eq_of_topBits_eq rfl]
  decide +kernel

/-- Settles O22: the values are linear in the fields, and each field is below 2^10, the alpha field below 2^12. -/
theorem decodeRanges : Obligations.DecodeRanges := by
  refine ⟨fun y cb cr a => ?_, decodeGroup_extreme⟩
  have field_mem (x : BitVec 10) : (0 : Rat) ≤ x.toNat ∧ (x.toNat : Rat) ≤ 1023 :=
    ⟨Nat.cast_nonneg _, by exact_mod_cast Nat.le_of_lt_succ x.isLt⟩
  obtain ⟨hy, hy'⟩ := field_mem y
  obtain ⟨hcb, hcb'⟩ := field_mem cb
  obtain ⟨hcr, hcr'⟩ := field_mem cr
  have ha : (0 : Rat) ≤ a.toNat := Nat.cast_nonneg _
  have ha' : (a.toNat : Rat) ≤ 4095 := by exact_mod_cast Nat.le_of_lt_succ a.isLt
  rw [reconstructR_eq_div, reconstructG_eq_div, reconstructB_eq_div, alphaQuotient_eq_div]
  push_cast
  refine ⟨?_, ?_, ?_, ?_, ?_, ?_, ?_, ?_⟩ <;> linarith

/-- Settles O24: the two pixels differ in luma and alpha alone. -/
theorem equalLumaEqualColour : Obligations.EqualLumaEqualColour := by
  intro table f h
  simp only [decodePixels, h, and_self]

/-! ### Ties (41_encode_rgba_to_ycbcra.md R159) -/

theorem rhaz_half (n : Nat) : rhaz ((2 * n + 1 : Rat) / 2) = n + 1 ∧ rhaz (-((2 * n + 1 : Rat) / 2)) = -(n + 1) := by
  have hpos : (2 * n + 1 : Rat) / 2 = ((2 * n + 1 : Int) : Rat) / (2 : Nat) := by push_cast; rfl
  have hneg : -((2 * n + 1 : Rat) / 2) = ((-(2 * n + 1) : Int) : Rat) / (2 : Nat) := by push_cast; ring
  constructor
  · rw [hpos, rhaz_div _ (by decide), if_pos (by omega)]
    omega
  · rw [hneg, rhaz_div _ (by decide), if_neg (by omega)]
    omega

/-- A colour whose scaled luma is an exact half has the code above it. -/
theorem lumaCode_of_half {yq : Rat} {n : Nat} (h : yq * 876 = (2 * n + 1 : Rat) / 2) (hn : n + 1 ≤ 876) :
    (lumaCode yq).toNat = n + 65 := by
  have hn' : (n : Rat) + 1 ≤ 876 := by exact_mod_cast hn
  have h0 : (0 : Rat) ≤ n := Nat.cast_nonneg n
  have hcode := lumaCode_toNat (yq := yq) (by linarith) (by linarith)
  rw [h, (rhaz_half n).1] at hcode
  omega

/-- Settles O30: the code by its definition, the halves as fractions, and the two colours' lumas. -/
theorem lumaTiesRoundAwayFromZero : Obligations.LumaTiesRoundAwayFromZero := by
  have h1 : pixelLuma false 115#8 30#8 100#8 255#8 * 876 = 365 / 2 := by decide +kernel
  have h2 : pixelLuma false 55#8 5#8 230#8 255#8 * 876 = 219 / 2 := by decide +kernel
  exact ⟨fun _ => rfl, rhaz_half,
    h1, BitVec.eq_of_toNat_eq (lumaCode_of_half (n := 182) (h1.trans (by norm_num)) (by decide)),
    h2, BitVec.eq_of_toNat_eq (lumaCode_of_half (n := 109) (h2.trans (by norm_num)) (by decide))⟩

/-! ### The round trip (R168) -/

theorem decodeFields_encodeGroup_opaquePair (top : DecYTop) (r g b : Byte) :
    decodeFields top (encodeGroup false ⟨r, g, b, 255#8, r, g, b, 255#8⟩) = opaquePairFields r g b :=
  decodeFields_packEncoded (f := opaquePairFields r g b) rfl top

/-- Above -1, truncation rounds down, but for the negative values, which go to 0. -/
theorem trunc0_bounds {v : Rat} (h : -1 < v) : v - 1 < trunc0 v ∧ (trunc0 v : Rat) ≤ max v 0 := by
  rw [trunc0]
  split
  next hv =>
    have hlt := Rat.lt_floor_add_one v
    push_cast at hlt
    exact ⟨by linarith, (Rat.floor_le v).trans (le_max_left v 0)⟩
  next hv =>
    have hfloor : (-v).floor = 0 := le_antisymm
      (Int.lt_add_one_iff.1 (Rat.floor_lt_iff.2 (by push_cast; linarith))) (Rat.le_floor_iff.2 (by push_cast; linarith))
    rw [hfloor]
    push_cast
    exact ⟨by linarith, le_max_right v 0⟩

/-- A channel value within one half of 256/255 of a byte narrows to within 1 of it. -/
theorem channelByte_close {v : Rat} {x : Byte} (h : |v - 256 * normalise x| < 1 / 2) (table : Narrow8Table) :
    (channelByte table v).toNat ≤ x.toNat + 1 ∧ x.toNat ≤ (channelByte table v).toNat + 1 := by
  obtain ⟨hlo, hhi⟩ := abs_lt.1 h
  have hx0 : (0 : Rat) ≤ x.toNat := Nat.cast_nonneg _
  have hx255 : (x.toNat : Rat) ≤ 255 := by exact_mod_cast Nat.le_of_lt_succ x.isLt
  rw [normalise, sampleMax] at hlo hhi
  rcases lt_or_ge v 255 with hlt | hge
  · have hv : -1 < v := by linarith
    obtain ⟨h0, h255⟩ := trunc0_mem_byte hv (by linarith)
    obtain ⟨hge, hle⟩ := trunc0_bounds hv
    have hmax : max v 0 < x.toNat + 2 := max_lt (by linarith) (by linarith)
    have hbyte := narrow8_toNat_of_mem h0 h255 table
    have hle' : trunc0 v < x.toNat + 2 := by exact_mod_cast hle.trans_lt hmax
    have hge' : (x.toNat : Int) - 2 < trunc0 v := by
      have : ((x.toNat : Int) - 2 : Rat) < trunc0 v := by push_cast; linarith
      exact_mod_cast this
    rw [channelByte_of_lt hlt]
    omega
  · have hx : 254 ≤ x.toNat := by
      have : (253 : Rat) < x.toNat := by linarith
      exact_mod_cast this
    have := x.isLt
    rw [channelByte_of_ge hge, BitVec.toNat_ofNat]
    omega

/-- Settles O34: the codes decode to within one half of 256/255 of the colour (as for O23), and alpha 255 is the field
937. -/
theorem roundTripWithinOne : Obligations.RoundTripWithinOne := by
  intro top table r g b
  obtain ⟨hR, hB, hG⟩ := reconstruct_codes_close (normalise_mem r) (normalise_mem g) (normalise_mem b)
  obtain ⟨hr, hr'⟩ := channelByte_close hR table
  obtain ⟨hg, hg'⟩ := channelByte_close hG table
  obtain ⟨hb, hb'⟩ := channelByte_close hB table
  have halpha : alphaByte table (alphaCode 255#8) = 255#8 := alphaByte_of_ge (by decide) (by decide) table
  rw [decodeGroup, decodeFields_encodeGroup_opaquePair]
  exact ⟨rfl, rfl, rfl, halpha, halpha, hr, hr', hg, hg', hb, hb'⟩

end Sys2Proof.Machine
end
